-- ==== Sys2Proof/Word.lean ====
section
/-! DEFINITION. The value types of VM11: bytes, the 7-bit payload of an operand byte, and the decoded operand. -/
namespace Sys2Proof

/-- An unsigned value 0..255: every register, memory byte, flag register and pc (00_scope.md R11, 10_state.md R24). -/
abbrev Byte := BitVec 8

/-- The payload `b[7:1]` of an operand byte: a literal value or a reference index, 0..127 (30_encoding.md R61). -/
abbrev Payload := BitVec 7

/-- A decoded operand (30_encoding.md R62): `Lit(n)` or `Ref(i)`. -/
inductive Operand where
  | lit (n : Payload)
  | ref (i : Payload)
deriving DecidableEq, Repr

/-- What an operand position accepts (30_encoding.md R66). -/
inductive OperandKind where
  | expr
  | addr
  | addrOfReference
deriving DecidableEq, Repr

/-- The operand position a LITERAL_OPERAND fault records: 1, 2 or INDIRECT (60_exceptions.md R181). -/
inductive OperandPos where
  | one
  | two
  | indirect
deriving DecidableEq, Repr

end Sys2Proof
end

