-- ==== Sys2Proof/Config.lean ====
section
/-! DEFINITION. What an implementation fixes: the parameters of 00_scope.md R8 with their defaults, the fixed constants of
R6, and the open parameters as free values. A `Config` is plain data; the machine's state carries the one it was built with. -/
namespace Sys2Proof

/-- The 11 mnemonics of the opcode map, in the order of the table (30_encoding.md R67). -/
inductive Mnemonic where
  | suspend | move | add | sub | jumpIfFalse | jumpRegister | markPc | input | output | addressOf | addressOfIndirect
deriving DecidableEq, Repr

/-- All mnemonics, in table order. -/
def Mnemonic.all : List Mnemonic :=
  [.suspend, .move, .add, .sub, .jumpIfFalse, .jumpRegister, .markPc, .input, .output, .addressOf, .addressOfIndirect]

/-- OPCODE_VALUE (R8, D1): the byte value of each mnemonic. -/
structure OpcodeMap where
  suspend           : Byte
  move              : Byte
  add               : Byte
  sub               : Byte
  jumpIfFalse       : Byte
  jumpRegister      : Byte
  markPc            : Byte
  input             : Byte
  output            : Byte
  addressOf         : Byte
  addressOfIndirect : Byte
deriving DecidableEq, Repr

/-- The byte OPCODE_VALUE gives a mnemonic. -/
def OpcodeMap.value (m : OpcodeMap) : Mnemonic → Byte
  | .suspend => m.suspend
  | .move => m.move
  | .add => m.add
  | .sub => m.sub
  | .jumpIfFalse => m.jumpIfFalse
  | .jumpRegister => m.jumpRegister
  | .markPc => m.markPc
  | .input => m.input
  | .output => m.output
  | .addressOf => m.addressOf
  | .addressOfIndirect => m.addressOfIndirect

/-- The default OPCODE_VALUE: each mnemonic's row index in the table (30_encoding.md R65, R67; D1). -/
def OpcodeMap.standard : OpcodeMap where
  suspend := 0x00#8
  move := 0x01#8
  add := 0x02#8
  sub := 0x03#8
  jumpIfFalse := 0x04#8
  jumpRegister := 0x05#8
  markPc := 0x06#8
  input := 0x07#8
  output := 0x08#8
  addressOf := 0x09#8
  addressOfIndirect := 0x0A#8

/-- IMAGE_BYTE_ORDER (R8, D16). -/
inductive ByteOrder where
  | little
  | big
deriving DecidableEq, Repr

/-- The configuration parameters of 00_scope.md R8 that have a default. -/
structure Config where
  memSize        : Nat
  opcodes        : OpcodeMap
  flagZeroBit    : Fin 8
  flagCarryBit   : Fin 8
  chanCharacter  : Byte
  chanNumeric    : Byte
  chanString     : Byte
  imageByteOrder : ByteOrder
deriving DecidableEq, Repr

/-- The defaults of 00_scope.md R8 (R7, D1, D2, D4, D16). -/
def Config.standard : Config where
  memSize := 128
  opcodes := OpcodeMap.standard
  flagZeroBit := 0
  flagCarryBit := 1
  chanCharacter := 0#8
  chanNumeric := 1#8
  chanString := 2#8
  imageByteOrder := .little

/-- What the spec asks of the parameters: `1 <= MEMSIZE <= 128` (R7), OPCODE_VALUE injective (R8), two defined flag bits
(10_state.md R26), three channel identifiers (43_io.md R140). -/
def Config.valid (c : Config) : Bool :=
  decide (1 ≤ c.memSize) && decide (c.memSize ≤ 128) &&
  decide (Mnemonic.all.map c.opcodes.value).Nodup &&
  decide (c.flagZeroBit ≠ c.flagCarryBit) &&
  decide (c.chanCharacter ≠ c.chanNumeric) && decide (c.chanCharacter ≠ c.chanString) &&
  decide (c.chanNumeric ≠ c.chanString)

/-- The image magic, `0x2017` (R6, 70_reset_and_hazards.md R201). -/
def Config.imageMagic : Nat := 0x2017

/-- The image header's size in bytes (R6, R201). -/
def Config.imageHeaderSize : Nat := 16

/-- DEFAULT_IMAGE's memory byte at an index (R8, 70_reset_and_hazards.md R207, D25): a free value, its contents are in no
source (log entry 6). -/
opaque Config.defaultImageByte : Nat → Byte

/-- DEFAULT_IMAGE's pc, to be taken modulo MEMSIZE (R207, D25): a free value (log entry 6). -/
opaque Config.defaultImagePc : Nat

/-- FAULT_EXIT_STATUS (R8, D24): a free value (log entry 7). -/
opaque Config.faultExitStatus : Nat

end Sys2Proof
end

