-- ==== Sys2Proof/Syntax.lean ====
section
/-! DEFINITION. The instructions of VM11: one constructor per row of spec/opcode_table.json (30_encoding.md R67), with its
operands in stream order (R60). Every operand byte decodes (R69), so an operand position holds any `Operand`; which of them
an instruction accepts is `Instr.wellFormed` and, in the machine, the decode faults of 40_dispatch.md R83. -/
namespace Sys2Proof

/-- One instruction with its decoded operands. -/
inductive Instr where
  | suspend
  | move (src dst : Operand)
  | add (src dst : Operand)
  | sub (src dst : Operand)
  | jumpIfFalse (flagMask addr : Operand)
  | jumpRegister (addr : Operand)
  | markPc (dst : Operand)
  | input (channel dst : Operand)
  | output (channel src : Operand)
  | addressOf (ref dst : Operand)
  | addressOfIndirect (src ref : Operand)
deriving DecidableEq, Repr

end Sys2Proof
end

