-- ==== Sys2Proof/WellFormed.lean ====
section
/-! DEFINITION. When an instruction is well formed for a configuration: every operand is of the kind its position asks for
(30_encoding.md R66) and names something (20_memory.md R43). An ill-formed one decodes, and faults when it runs (R69). -/
namespace Sys2Proof

/-- A reference with this index names a register or a memory byte (20_memory.md R43). -/
def Config.indexExists (cfg : Config) (i : Payload) : Bool :=
  decide (i.toNat < 8) || decide (i.toNat < cfg.memSize)

/-- The operand may stand in an expr position (R66): a literal, or a reference that names something. -/
def Operand.exprOk (cfg : Config) : Operand → Bool
  | .lit _ => true
  | .ref i => cfg.indexExists i

/-- The operand may stand in an addr or addr-of-reference position (R66): a reference that names something. -/
def Operand.addrOk (cfg : Config) : Operand → Bool
  | .lit _ => false
  | .ref i => cfg.indexExists i

/-- Every operand is accepted in its position (R66, R67, R69). -/
def Instr.wellFormed (cfg : Config) : Instr → Bool
  | .suspend => true
  | .move src dst => src.exprOk cfg && dst.addrOk cfg
  | .add src dst => src.exprOk cfg && dst.addrOk cfg
  | .sub src dst => src.exprOk cfg && dst.addrOk cfg
  | .jumpIfFalse flagMask addr => flagMask.exprOk cfg && addr.addrOk cfg
  | .jumpRegister addr => addr.addrOk cfg
  | .markPc dst => dst.addrOk cfg
  | .input channel dst => channel.exprOk cfg && dst.addrOk cfg
  | .output channel src => channel.exprOk cfg && src.addrOk cfg
  | .addressOf ref dst => ref.addrOk cfg && dst.addrOk cfg
  | .addressOfIndirect src ref => src.exprOk cfg && ref.addrOk cfg

end Sys2Proof
end

