-- ==== Sys2Proof/Decode.lean ====
section
/-! DEFINITION. The operand codec, the decoder and the encoder (30_encoding.md R60 to R71). Decoding is total on any bytes
and rejects by name (R74). -/
namespace Sys2Proof

/-- `Decode(b)` (30_encoding.md R62): bit 0 is the tag, bits 7..1 the payload. -/
def decodeOperand (b : Byte) : Operand :=
  if b.getLsbD 0 then .lit (b.extractLsb' 1 7) else .ref (b.extractLsb' 1 7)

/-- The byte of a decoded operand (R63): the payload above the tag. -/
def encodeOperand : Operand → Byte
  | .lit n => n ++ 1#1
  | .ref i => i ++ 0#1

/-- `encode_literal` (R63): refuses a value above 127. -/
def encodeLiteral (n : Nat) : Option Byte :=
  if n ≤ 127 then some (BitVec.ofNat 8 (2 * n + 1)) else none

/-- `encode_reference` (R63), for an index 0..127. -/
def encodeReference (i : Nat) : Option Byte :=
  if i ≤ 127 then some (BitVec.ofNat 8 (2 * i)) else none

/-- The mnemonic of an opcode byte (R65, R67): looked up raw, all 8 bits. `none` is an unassigned byte (R68). -/
def decodeMnemonic (cfg : Config) (b : Byte) : Option Mnemonic :=
  Mnemonic.all.find? fun m => decide (cfg.opcodes.value m = b)

/-- Why bytes are not an instruction (R74): an opcode byte is missing, it is unassigned, or operand byte `k` is missing. -/
inductive DecodeError where
  | noOpcode
  | unassigned (b : Byte)
  | missingOperand (k : Nat)
deriving DecidableEq, Repr

/-- Format F1 (R60): one operand byte. -/
def decodeOne (mk : Operand → Instr) : List Byte → Except DecodeError (Instr × List Byte)
  | [] => .error (.missingOperand 1)
  | b :: rest => .ok (mk (decodeOperand b), rest)

/-- Format F2 (R60): two operand bytes, in stream order. -/
def decodeTwo (mk : Operand → Operand → Instr) : List Byte → Except DecodeError (Instr × List Byte)
  | [] => .error (.missingOperand 1)
  | [_] => .error (.missingOperand 2)
  | b₁ :: b₂ :: rest => .ok (mk (decodeOperand b₁) (decodeOperand b₂), rest)

/-- The operand bytes of an instruction whose mnemonic is known (R67). -/
def decodeOperands (m : Mnemonic) (rest : List Byte) : Except DecodeError (Instr × List Byte) :=
  match m with
  | .suspend => .ok (.suspend, rest)
  | .move => decodeTwo .move rest
  | .add => decodeTwo .add rest
  | .sub => decodeTwo .sub rest
  | .jumpIfFalse => decodeTwo .jumpIfFalse rest
  | .jumpRegister => decodeOne .jumpRegister rest
  | .markPc => decodeOne .markPc rest
  | .input => decodeTwo .input rest
  | .output => decodeTwo .output rest
  | .addressOf => decodeTwo .addressOf rest
  | .addressOfIndirect => decodeTwo .addressOfIndirect rest

/-- The instruction at the head of a list of bytes and the bytes after it (R71, R74). -/
def decode (cfg : Config) : List Byte → Except DecodeError (Instr × List Byte)
  | [] => .error .noOpcode
  | op :: rest =>
    match decodeMnemonic cfg op with
    | none => .error (.unassigned op)
    | some m => decodeOperands m rest

/-- The mnemonic of an instruction. -/
def Instr.mnemonic : Instr → Mnemonic
  | .suspend => .suspend
  | .move _ _ => .move
  | .add _ _ => .add
  | .sub _ _ => .sub
  | .jumpIfFalse _ _ => .jumpIfFalse
  | .jumpRegister _ => .jumpRegister
  | .markPc _ => .markPc
  | .input _ _ => .input
  | .output _ _ => .output
  | .addressOf _ _ => .addressOf
  | .addressOfIndirect _ _ => .addressOfIndirect

/-- The number of operand bytes a mnemonic takes (R60, R67). -/
def Mnemonic.arity : Mnemonic → Nat
  | .suspend => 0
  | .jumpRegister => 1
  | .markPc => 1
  | .move => 2
  | .add => 2
  | .sub => 2
  | .jumpIfFalse => 2
  | .input => 2
  | .output => 2
  | .addressOf => 2
  | .addressOfIndirect => 2

/-- An instruction's length in bytes (R60, R71): the opcode byte and its operand bytes. -/
def Instr.length (i : Instr) : Nat := i.mnemonic.arity + 1

/-- The operand bytes of an instruction, in stream order (R60). -/
def encodeOperands : Instr → List Byte
  | .suspend => []
  | .move src dst => [encodeOperand src, encodeOperand dst]
  | .add src dst => [encodeOperand src, encodeOperand dst]
  | .sub src dst => [encodeOperand src, encodeOperand dst]
  | .jumpIfFalse flagMask addr => [encodeOperand flagMask, encodeOperand addr]
  | .jumpRegister addr => [encodeOperand addr]
  | .markPc dst => [encodeOperand dst]
  | .input channel dst => [encodeOperand channel, encodeOperand dst]
  | .output channel src => [encodeOperand channel, encodeOperand src]
  | .addressOf ref dst => [encodeOperand ref, encodeOperand dst]
  | .addressOfIndirect src ref => [encodeOperand src, encodeOperand ref]

/-- The bytes of an instruction (R60, R67). -/
def encode (cfg : Config) (i : Instr) : List Byte :=
  cfg.opcodes.value i.mnemonic :: encodeOperands i

/-- The bytes of an instruction word as spec/opcode_table.json numbers its bits: the first byte is bits 7..0, the second bits
15..8, the third bits 23..16; bits from `nbits` on are 0. Three bytes, the longest instruction (R60). -/
def tableWordBytes (nbits w : Nat) : List Byte :=
  let v := w % 2 ^ nbits
  [BitVec.ofNat 8 v, BitVec.ofNat 8 (v / 256), BitVec.ofNat 8 (v / 65536)]

/-- The instruction the decoder reads from a word of spec/opcode_table.json, whose byte values are the default ones. -/
def decodeTableWord (nbits w : Nat) : Option Instr :=
  match decode Config.standard (tableWordBytes nbits w) with
  | .ok (i, _) => some i
  | .error _ => none

end Sys2Proof
end

