-- ==== Sys2Proof/Machine/State.lean ====
section
/-! DEFINITION. The machine's state as plain data (10_state.md R20), the faults it can record, and the state right after
reset. -/
namespace Sys2Proof.Machine

/-- Why the core halted (10_state.md R28, 60_exceptions.md R185). -/
inductive HaltCause where
  | suspend
  | unknownOpcode (b : Byte)
deriving DecidableEq, Repr

/-- A fault's kind with the info it records (60_exceptions.md R181). -/
inductive FaultCause where
  | fetchOutOfRange (index : Byte)
  | literalOperand (pos : OperandPos)
  | addressOutOfRange (index : Payload)
  | unsupportedChannel (channel : Byte)
deriving DecidableEq, Repr

/-- The fault record (60_exceptions.md R182): `code` and `info` are the cause, `addr` is the address of the faulting
instruction's opcode byte, `pc` the value of the pc when the fault was detected. -/
structure FaultRecord where
  cause : FaultCause
  addr  : Byte
  pc    : Byte
deriving DecidableEq, Repr

/-- The run state (10_state.md R28). -/
inductive Status where
  | running
  | halted (cause : HaltCause)
  | faulted (record : FaultRecord)
deriving DecidableEq, Repr

/-- A channel of the I/O port that has a defined behaviour (43_io.md R140). -/
inductive PortChannel where
  | character
  | numeric
deriving DecidableEq, Repr

/-- What crosses the I/O port (43_io.md R145): a value INPUT consumes, an event OUTPUT emits. -/
inductive IoEvent where
  | consumed (channel : PortChannel) (value : Int)
  | emitted (channel : PortChannel) (value : Byte)
deriving DecidableEq, Repr

/-- Memory: the bytes that are not 0, by address, strictly rising (log entry 2). -/
abbrev Memory := List Host.Cell

/-- The machine's state. `pc`, `flags`, `regs`, `mem` and `status` are the tuple of 10_state.md R20. `cfg`, `inputs` and
`ioLog` are the model's own: the parameters of R8, the values the environment has supplied (43_io.md R141), and what has
crossed the port (R145); see log entries 3, 4 and 5. -/
structure State where
  cfg    : Config
  pc     : Byte
  flags  : Byte
  regs   : Vector Byte 8
  mem    : Memory
  status : Status
  inputs : List Int
  ioLog  : List IoEvent
deriving DecidableEq, Repr

/-- Why `step` takes no step. -/
inductive Fault where
  /-- Raised by `step` when the core is HALTED: no step is defined from there (40_dispatch.md R89). Safe: nothing runs. -/
  | coreHalted (cause : HaltCause)
  /-- Raised by `step` when the core is FAULTED: no step is defined from there (40_dispatch.md R89). Safe: nothing runs. -/
  | coreFaulted (record : FaultRecord)
  /-- Raised by INPUT, and so by `step`, when its checks have passed and the environment has supplied no value: the step is not
  enabled, and the core stays as it is until a value is supplied (40_dispatch.md R80, 43_io.md R141, D19). Safe: nothing runs. -/
  | awaitingInput (channel : PortChannel)
deriving DecidableEq, Repr

/-- Why an instruction has no meaning. -/
inductive Refusal where
  /-- Raised by an arm of `exec` whose instruction has no meaning yet; no arm of this model does. Safe: nothing runs. -/
  | notModelled (mnemonic : String)
deriving DecidableEq, Repr

/-- The state right after reset (10_state.md R34): registers, flags and status as R23, R27 and R28 say, the default
parameters of R8, and the image whose payload is zeros and whose pc is 0 (DESIGN CHOICE, log entry 1). -/
def State.reset : State where
  cfg := Config.standard
  pc := 0#8
  flags := 0#8
  regs := Vector.replicate 8 0#8
  mem := []
  status := .running
  inputs := []
  ioLog := []

end Sys2Proof.Machine
end

