-- ==== Sys2Proof/Machine/Ops.lean ====
section
/-! DEFINITION. The named operations over memory, registers and run state, among them taking a fault (60_exceptions.md R184),
halting, and the environment's act of supplying an input value. -/
namespace Sys2Proof.Machine

/-- `MemRead(a, 1)` (00_scope.md R12): the byte at an address; an address not listed reads 0 (log entry 2). -/
def Memory.read : Memory → Nat → Byte
  | [], _ => 0#8
  | (k, v) :: rest, a => if k = a then v else Memory.read rest a

/-- `MemWrite(a, 1, v)` (R12), keeping the list sorted and free of zero entries. -/
def Memory.write : Memory → Nat → Byte → Memory
  | [], a, b => if b = 0#8 then [] else [(a, b)]
  | (k, v) :: rest, a, b =>
    if a < k then (if b = 0#8 then (k, v) :: rest else (a, b) :: (k, v) :: rest)
    else if a = k then (if b = 0#8 then rest else (a, b) :: rest)
    else (k, v) :: Memory.write rest a b

/-- Every listed address is at least `lo`, addresses rise strictly, and no listed byte is 0. -/
def Memory.wfFrom (lo : Nat) : Memory → Bool
  | [] => true
  | (k, v) :: rest => decide (lo ≤ k) && decide (v ≠ 0#8) && Memory.wfFrom (k + 1) rest

/-- The canonical form of a memory. -/
def Memory.wf (m : Memory) : Bool := Memory.wfFrom 0 m

/-- The memory whose bytes from address `k` on are `bs`, in canonical form. -/
def Memory.ofBytes : Nat → List Byte → Memory
  | _, [] => []
  | k, b :: bs => if b = 0#8 then Memory.ofBytes (k + 1) bs else (k, b) :: Memory.ofBytes (k + 1) bs

/-- `pc <- t` (R12). -/
def State.setPc (s : State) (t : Byte) : State := { s with pc := t }

/-- `flags <- v` (R12): all of it. -/
def State.setFlags (s : State) (v : Byte) : State := { s with flags := v }

/-- `x[r] <- v` (R12, 10_state.md R22). -/
def State.setReg (s : State) (r : Fin 8) (v : Byte) : State := { s with regs := s.regs.set r v }

/-- `MemWrite(a, 1, v)` (R12) on the state. -/
def State.setMem (s : State) (a : Nat) (v : Byte) : State := { s with mem := s.mem.write a v }

/-- `status <- s` (R12). -/
def State.setStatus (s : State) (st : Status) : State := { s with status := st }

/-- The values the environment has supplied and no INPUT has taken. -/
def State.setInputs (s : State) (vs : List Int) : State := { s with inputs := vs }

/-- One more event has crossed the port, after all earlier ones (43_io.md R142). -/
def State.logIo (s : State) (e : IoEvent) : State := { s with ioLog := s.ioLog ++ [e] }

/-- `x[r]` (R12). -/
def State.reg (s : State) (r : Fin 8) : Byte := s.regs[r]

/-- What a reference index denotes (20_memory.md R43). -/
inductive Loc where
  | reg (r : Fin 8)
  | mem (a : Nat)
deriving DecidableEq, Repr

/-- `Locate(i)` (20_memory.md R43); `none` where it raises ADDRESS_OUT_OF_RANGE. -/
def locate (cfg : Config) (i : Payload) : Option Loc :=
  if h : i.toNat < 8 then some (.reg ⟨i.toNat, h⟩)
  else if i.toNat < cfg.memSize then some (.mem i.toNat)
  else none

/-- The contents of a located register or memory byte (R44). -/
def State.readLoc (s : State) : Loc → Byte
  | .reg r => s.reg r
  | .mem a => s.mem.read a

/-- A write to a located register or memory byte (R45). -/
def State.writeLoc (s : State) (l : Loc) (v : Byte) : State :=
  match l with
  | .reg r => s.setReg r v
  | .mem a => s.setMem a v

/-- The cause codes of 60_exceptions.md R181. -/
def FaultCause.code : FaultCause → Nat
  | .fetchOutOfRange _ => 1
  | .literalOperand _ => 2
  | .addressOutOfRange _ => 3
  | .unsupportedChannel _ => 4

/-- Taking a fault (60_exceptions.md R182, R184): status becomes FAULTED with the record, `pc` keeps the value it reached,
and nothing else changes. `addr` is the address of the instruction's opcode byte. There is no return from it (R187). -/
def State.takeFault (s : State) (addr reached : Byte) (c : FaultCause) : State :=
  (s.setPc reached).setStatus (.faulted { cause := c, addr := addr, pc := reached })

/-- `halt(cause)` (R12, R185). -/
def State.halt (s : State) (c : HaltCause) : State := s.setStatus (.halted c)

/-- The environment supplies one more input value (43_io.md R141). -/
def State.supply (s : State) (v : Int) : State := s.setInputs (s.inputs ++ [v])

/-- The output events so far, in program order (R142). -/
def State.outputs (s : State) : List (PortChannel × Byte) :=
  s.ioLog.filterMap fun e =>
    match e with
    | .consumed _ _ => none
    | .emitted c v => some (c, v)

/-- Instruction bytes from address `a` on, at most `n`, as far as they lie below MEMSIZE: what `FetchByte` can read there
(40_dispatch.md R81). -/
def State.bytesFrom (s : State) : Nat → Nat → List Byte
  | _, 0 => []
  | a, n + 1 => if a < s.cfg.memSize then s.mem.read a :: State.bytesFrom s (a + 1) n else []

/-- Bytes stored from address `a` on; a byte at or above MEMSIZE has no place and is not stored. -/
def State.placeBytes (s : State) : Nat → List Byte → State
  | _, [] => s
  | a, b :: bs => (if a < s.cfg.memSize then s.setMem a b else s).placeBytes (a + 1) bs

end Sys2Proof.Machine
end

