-- ==== Sys2Proof/Machine/Flags.lean ====
section
/-! DEFINITION. The ALU and the flag register (41_move_arith.md R100, R101, R102). -/
namespace Sys2Proof.Machine

/-- What the ALU returns: the result and the two flags. -/
structure AluResult where
  value : Byte
  carry : Bool
  zero  : Bool
deriving DecidableEq, Repr

/-- `add(old, delta)` (41_move_arith.md R100). -/
def aluAdd (old delta : Byte) : AluResult :=
  { value := old + delta, carry := decide (old + delta < old), zero := decide (old + delta = 0#8) }

/-- `sub(old, delta)` (41_move_arith.md R101): CARRY is a borrow. -/
def aluSub (old delta : Byte) : AluResult :=
  { value := old - delta, carry := decide (old < old - delta), zero := decide (old - delta = 0#8) }

/-- The mask of one flag bit. -/
def flagBit (k : Fin 8) : Byte := 1#8 <<< k.val

/-- The byte ADD and SUB write to `flags` (41_move_arith.md R102): every bit of it, the reserved ones 0. -/
def flagsOf (cfg : Config) (r : AluResult) : Byte :=
  (if r.zero then flagBit cfg.flagZeroBit else 0#8) ||| (if r.carry then flagBit cfg.flagCarryBit else 0#8)

/-- JUMP-IF-FALSE's test (42_control.md R121): every flag bit named in the mask is clear. -/
def flagsClear (flags mask : Byte) : Bool := decide (flags &&& mask = 0#8)

end Sys2Proof.Machine
end

