-- ==== Sys2Proof/Machine/Operands.lean ====
section
/-! DEFINITION. Operand access (20_memory.md R44, R45), the decode checks (40_dispatch.md R83), and the frame every
instruction runs in (R83, R86, 60_exceptions.md R184). -/
namespace Sys2Proof.Machine

/-- Why an instruction's handler does not complete: it raises a fault, or INPUT waits for the environment on a channel. -/
inductive Stop where
  | fault (c : FaultCause)
  | waiting (channel : PortChannel)
deriving DecidableEq, Repr

/-- `ReadOp(o)` (20_memory.md R44). -/
def State.readOp (s : State) : Operand → Except Stop Byte
  | .lit n => .ok (n.setWidth 8)
  | .ref i =>
    match locate s.cfg i with
    | some l => .ok (s.readLoc l)
    | none => .error (.fault (.addressOutOfRange i))

/-- `WriteOp(o, v)` (20_memory.md R45); `slot` is the position a literal destination would be reported at. -/
def State.writeOp (s : State) (slot : OperandPos) (o : Operand) (v : Byte) : Except Stop State :=
  match o with
  | .lit _ => .error (.fault (.literalOperand slot))
  | .ref i =>
    match locate s.cfg i with
    | some l => .ok (s.writeLoc l v)
    | none => .error (.fault (.addressOutOfRange i))

/-- The operands of an instruction with their positions and kinds (30_encoding.md R66, R67). -/
def instrOperands : Instr → List (OperandPos × OperandKind × Operand)
  | .suspend => []
  | .move src dst => [(.one, .expr, src), (.two, .addr, dst)]
  | .add src dst => [(.one, .expr, src), (.two, .addr, dst)]
  | .sub src dst => [(.one, .expr, src), (.two, .addr, dst)]
  | .jumpIfFalse flagMask addr => [(.one, .expr, flagMask), (.two, .addr, addr)]
  | .jumpRegister addr => [(.one, .addr, addr)]
  | .markPc dst => [(.one, .addr, dst)]
  | .input channel dst => [(.one, .expr, channel), (.two, .addr, dst)]
  | .output channel src => [(.one, .expr, channel), (.two, .addr, src)]
  | .addressOf ref dst => [(.one, .addrOfReference, ref), (.two, .addr, dst)]
  | .addressOfIndirect src ref => [(.one, .expr, src), (.two, .addrOfReference, ref)]

/-- Whether a position of this kind accepts a literal (30_encoding.md R66). -/
def kindTakesLiteral : OperandKind → Bool
  | .expr => true
  | .addr => false
  | .addrOfReference => false

/-- The check of one operand (40_dispatch.md R83): its kind, then its range. -/
def checkOperand (cfg : Config) (pos : OperandPos) (kind : OperandKind) : Operand → Option FaultCause
  | .lit _ => if kindTakesLiteral kind then none else some (.literalOperand pos)
  | .ref i =>
    match locate cfg i with
    | some _ => none
    | none => some (.addressOutOfRange i)

/-- The checks of all operands, operand 1 before operand 2: the first fault found (R83, 60_exceptions.md R183). -/
def checkOperands (cfg : Config) : List (OperandPos × OperandKind × Operand) → Option FaultCause
  | [] => none
  | (pos, kind, o) :: rest =>
    match checkOperand cfg pos kind o with
    | some c => some c
    | none => checkOperands cfg rest

/-- The pc just past an instruction that starts at `a` (10_state.md R25). -/
def pcAfter (a : Byte) (i : Instr) : Byte := a + BitVec.ofNat 8 i.length

/-- How an instruction's handler ends: its state, the fault it raised taken from the state before the instruction, so that
nothing of its effect happens (60_exceptions.md R184), or, for a wait, no step at all (40_dispatch.md R80, 43_io.md R141). -/
def finish (i : Instr) (s : State) : Except Stop State → Host.Outcome State Fault Refusal
  | .ok t => .next t
  | .error (.fault c) => .next (s.takeFault s.pc (pcAfter s.pc i) c)
  | .error (.waiting p) => .fault (.awaitingInput p)

/-- An instruction whose bytes have been fetched from `s.pc` on (40_dispatch.md R83, R87): its operands are checked, then its
handler `body` runs on the state whose `pc` is past the instruction (10_state.md R25). -/
def runInstr (i : Instr) (body : State → Except Stop State) (s : State) : Host.Outcome State Fault Refusal :=
  match checkOperands s.cfg (instrOperands i) with
  | some c => finish i s (.error (.fault c))
  | none => finish i s (body (s.setPc (pcAfter s.pc i)))

end Sys2Proof.Machine
end

