-- ==== Sys2Proof/Machine/Address.lean ====
section
/-! DEFINITION. ADDRESS-OF and ADDRESS-OF-INDIRECT (44_address.md R160, R161). -/
namespace Sys2Proof.Machine

/-- The index an addr-of-reference operand names; a literal has none (44_address.md R160). -/
def referenceIndex (pos : OperandPos) : Operand → Except Stop Payload
  | .lit _ => .error (.fault (.literalOperand pos))
  | .ref i => .ok i

/-- ADDRESS-OF ref, dst (44_address.md R160): writes the pointer byte of ref's index; ref's contents are not read. -/
def execAddressOf (ref dst : Operand) (s : State) : Host.Outcome State Fault Refusal :=
  runInstr (.addressOf ref dst) (fun s => do
    let i ← referenceIndex .one ref
    s.writeOp .two dst (encodeOperand (.ref i))) s

/-- ADDRESS-OF-INDIRECT src, ref (44_address.md R161): stores src's value where the pointer byte in ref's cell points. -/
def execAddressOfIndirect (src ref : Operand) (s : State) : Host.Outcome State Fault Refusal :=
  runInstr (.addressOfIndirect src ref) (fun s => do
    let v ← s.readOp src
    let p ← s.readOp ref
    s.writeOp .indirect (decodeOperand p) v) s

end Sys2Proof.Machine
end

