-- ==== Sys2Proof/Machine/Control.lean ====
section
/-! DEFINITION. SUSPEND (40_dispatch.md R84), JUMP-IF-FALSE, JUMP-REGISTER and MARK-PC (42_control.md R121, R122, R123). -/
namespace Sys2Proof.Machine

/-- SUSPEND (40_dispatch.md R84, R86): no computation, then the halt. -/
def execSuspend (s : State) : Host.Outcome State Fault Refusal :=
  runInstr .suspend (fun s => .ok (s.halt .suspend)) s

/-- JUMP-IF-FALSE flag_mask, addr (42_control.md R121): the target is addr's contents (R120). -/
def execJumpIfFalse (flagMask addr : Operand) (s : State) : Host.Outcome State Fault Refusal :=
  runInstr (.jumpIfFalse flagMask addr) (fun s => do
    let m ← s.readOp flagMask
    let t ← s.readOp addr
    return if flagsClear s.flags m then s.setPc t else s) s

/-- JUMP-REGISTER addr (42_control.md R122). -/
def execJumpRegister (addr : Operand) (s : State) : Host.Outcome State Fault Refusal :=
  runInstr (.jumpRegister addr) (fun s => do
    let t ← s.readOp addr
    return s.setPc t) s

/-- MARK-PC dst (42_control.md R123): saves the pc past the instruction, as a plain number. -/
def execMarkPc (dst : Operand) (s : State) : Host.Outcome State Fault Refusal :=
  runInstr (.markPc dst) (fun s => s.writeOp .one dst s.pc) s

end Sys2Proof.Machine
end

