-- ==== Sys2Proof/Machine/Data.lean ====
section
/-! DEFINITION. MOVE, ADD and SUB (41_move_arith.md R103, R104, R105). -/
namespace Sys2Proof.Machine

/-- MOVE src, dst (41_move_arith.md R103). -/
def execMove (src dst : Operand) (s : State) : Host.Outcome State Fault Refusal :=
  runInstr (.move src dst) (fun s => do
    let v ← s.readOp src
    s.writeOp .two dst v) s

/-- The handler ADD and SUB share (R104, R105): both operands are read, the result is written, then all of `flags`. -/
def arithmetic (alu : Byte → Byte → AluResult) (src dst : Operand) (s : State) : Except Stop State := do
  let delta ← s.readOp src
  let old ← s.readOp dst
  let t ← s.writeOp .two dst (alu old delta).value
  return t.setFlags (flagsOf s.cfg (alu old delta))

/-- ADD src, dst (41_move_arith.md R104). -/
def execAdd (src dst : Operand) (s : State) : Host.Outcome State Fault Refusal :=
  runInstr (.add src dst) (arithmetic aluAdd src dst) s

/-- SUB src, dst (41_move_arith.md R105): `dst - src`. -/
def execSub (src dst : Operand) (s : State) : Host.Outcome State Fault Refusal :=
  runInstr (.sub src dst) (arithmetic aluSub src dst) s

end Sys2Proof.Machine
end

