-- ==== Sys2Proof/Machine/InputOutput.lean ====
section
/-! DEFINITION. The I/O port, INPUT and OUTPUT (43_io.md R140 to R144). -/
namespace Sys2Proof.Machine

/-- The port's channel of a channel value (43_io.md R140); `none` for STRING and for a value that names no channel. -/
def portChannel (cfg : Config) (c : Byte) : Option PortChannel :=
  if c = cfg.chanCharacter then some .character
  else if c = cfg.chanNumeric then some .numeric
  else none

/-- The channel an INPUT or OUTPUT operand value selects, or UNSUPPORTED_CHANNEL (R143, R144). -/
def selectChannel (cfg : Config) (c : Byte) : Except Stop PortChannel :=
  match portChannel cfg c with
  | some p => .ok p
  | none => .error (.fault (.unsupportedChannel c))

/-- `IoIn(c)` (43_io.md R141): the next value the environment has supplied, or the wait for one. -/
def State.ioIn (s : State) (p : PortChannel) : Except Stop (Int × State) :=
  match s.inputs with
  | [] => .error (.waiting p)
  | v :: rest => .ok (v, (s.setInputs rest).logIo (.consumed p v))

/-- `IoOut(c, v)` (43_io.md R142): emits one event and does not wait. -/
def State.ioOut (s : State) (p : PortChannel) (v : Byte) : State := s.logIo (.emitted p v)

/-- INPUT channel, dst (43_io.md R143): the value is stored modulo 256. With none supplied the instruction takes no step (R141). -/
def execInput (channel dst : Operand) (s : State) : Host.Outcome State Fault Refusal :=
  runInstr (.input channel dst) (fun s => do
    let c ← s.readOp channel
    let p ← selectChannel s.cfg c
    let (v, t) ← s.ioIn p
    t.writeOp .two dst (BitVec.ofInt 8 v)) s

/-- OUTPUT channel, src (43_io.md R144). -/
def execOutput (channel src : Operand) (s : State) : Host.Outcome State Fault Refusal :=
  runInstr (.output channel src) (fun s => do
    let c ← s.readOp channel
    let p ← selectChannel s.cfg c
    let v ← s.readOp src
    return s.ioOut p v) s

/-- The decimal digits of a byte as character codes, without leading zeros. -/
def decimalCodes (v : Byte) : List Nat :=
  let n := v.toNat
  if n < 10 then [48 + n]
  else if n < 100 then [48 + n / 10, 48 + n % 10]
  else [48 + n / 100, 48 + n / 10 % 10, 48 + n % 10]

/-- What the host renders of an output event, as character codes (43_io.md R142, D23): NUMERIC the unsigned decimal digits
and a newline, CHARACTER the one character. -/
def renderOutput : PortChannel × Byte → List Nat
  | (.numeric, v) => decimalCodes v ++ [10]
  | (.character, v) => [v.toNat]

end Sys2Proof.Machine
end

