-- ==== Sys2Proof/Machine/Dispatch.lean ====
section
/-! DEFINITION. One arm per instruction (40_dispatch.md R82, R87). The state's `pc` is the address of the opcode byte. -/
namespace Sys2Proof.Machine

def exec (i : Instr) (s : State) : Host.Outcome State Fault Refusal :=
  match i with
  | .suspend => Sys2Proof.Machine.execSuspend s
  | .move src dst => Sys2Proof.Machine.execMove src dst s
  | .add src dst => Sys2Proof.Machine.execAdd src dst s
  | .sub src dst => Sys2Proof.Machine.execSub src dst s
  | .jumpIfFalse flagMask addr => Sys2Proof.Machine.execJumpIfFalse flagMask addr s
  | .jumpRegister addr => Sys2Proof.Machine.execJumpRegister addr s
  | .markPc dst => Sys2Proof.Machine.execMarkPc dst s
  | .input channel dst => Sys2Proof.Machine.execInput channel dst s
  | .output channel src => Sys2Proof.Machine.execOutput channel src s
  | .addressOf ref dst => Sys2Proof.Machine.execAddressOf ref dst s
  | .addressOfIndirect src ref => Sys2Proof.Machine.execAddressOfIndirect src ref s

end Sys2Proof.Machine
end

