-- ==== Sys2Proof/Machine/Cycle.lean ====
section
/-! DEFINITION. The execution loop (40_dispatch.md R80 to R89): fetch, decode, dispatch, the halt on an unassigned opcode, the
fetch faults, and the terminal states. -/
namespace Sys2Proof.Machine

/-- What the decoder reads at `pc`, from the at most three instruction bytes there (30_encoding.md R60, R74). -/
def State.instructionAt (s : State) : Except DecodeError (Instr × List Byte) :=
  decode s.cfg (s.bytesFrom s.pc.toNat 3)

/-- One step from RUNNING (40_dispatch.md R87). A missing byte is FETCH_OUT_OF_RANGE at the index it was fetched from (R81): the
opcode at `a`, operand byte `k` at `a + k`. -/
def runStep (s : State) : Host.Outcome State Fault Refusal :=
  match s.instructionAt with
  | .ok (i, _) => exec i s
  | .error .noOpcode => .next (s.takeFault s.pc s.pc (.fetchOutOfRange s.pc))
  | .error (.unassigned b) => .next ((s.setPc (s.pc + 1#8)).halt (.unknownOpcode b))
  | .error (.missingOperand k) =>
    .next (s.takeFault s.pc (s.pc + BitVec.ofNat 8 k) (.fetchOutOfRange (s.pc + BitVec.ofNat 8 k)))

/-- A step is enabled only when the core is RUNNING (40_dispatch.md R80, R89), and an INPUT's only with a value (R141), which
`exec` sees to. -/
def cycle (s : State) : Host.Outcome State Fault Refusal :=
  match s.status with
  | .running => runStep s
  | .halted c => .fault (.coreHalted c)
  | .faulted f => .fault (.coreFaulted f)

end Sys2Proof.Machine
end

