-- ==== Sys2Proof/Machine/Step.lean ====
section
/-! DEFINITION. The step function, and how a test word is placed where the next step fetches. -/
namespace Sys2Proof.Machine

/-- One step of the core (40_dispatch.md R87, R89). -/
def step (s : State) : Host.Outcome State Fault Refusal := cycle s

/-- `s`, RUNNING, with the word's bytes stored from `pc` on: the very next step fetches and runs that instruction. It stands
for the load of a program from outside the machine (log entry 9). -/
def State.withFetchWord (s : State) (nbits w : Nat) : State :=
  (s.setStatus .running).placeBytes s.pc.toNat (tableWordBytes nbits w)

end Sys2Proof.Machine
end

