-- ==== Sys2Proof/Machine/Image.lean ====
section
/-! DEFINITION. The image-in (load) and image-out (save) interfaces (70_reset_and_hazards.md R200 to R209) and the exit status
the host gives a run (60_exceptions.md R185, 92_eei_decisions.md D24). -/
namespace Sys2Proof.Machine

/-- What an image gives the core: its pc and its memory bytes (R201). -/
structure Image where
  pc      : Nat
  payload : List Byte
deriving DecidableEq, Repr

/-- What the image-in interface is given (R200): nothing, a file that cannot be read, or an image byte string. -/
inductive ImageSource where
  | nothing
  | unreadable
  | bytes (bs : List Byte)
deriving DecidableEq, Repr

/-- The load faults (R202). -/
inductive LoadFault where
  | loadUnreadable
  | shortHeader
  | badMagic
  | memsizeMismatch
  | pcOutOfRange
  | shortPayload
deriving DecidableEq, Repr

/-- The number whose bytes are listed lowest first. -/
def numberOfBytes : List Byte → Nat
  | [] => 0
  | b :: bs => b.toNat + 256 * numberOfBytes bs

/-- The `n` bytes of a number, lowest first. -/
def bytesOfNumber : Nat → Nat → List Byte
  | 0, _ => []
  | n + 1, v => BitVec.ofNat 8 v :: bytesOfNumber n (v / 256)

/-- A u32 header field as stored, read in IMAGE_BYTE_ORDER (R201). -/
def readU32 (order : ByteOrder) (bs : List Byte) : Nat :=
  match order with
  | .little => numberOfBytes bs
  | .big => numberOfBytes bs.reverse

/-- A u32 header field, written in IMAGE_BYTE_ORDER (R201). -/
def writeU32 (order : ByteOrder) (v : Nat) : List Byte :=
  match order with
  | .little => bytesOfNumber 4 v
  | .big => (bytesOfNumber 4 v).reverse

/-- The header field of an image at a byte offset (R201). -/
def headerField (cfg : Config) (bs : List Byte) (offset : Nat) : Nat :=
  readU32 cfg.imageByteOrder ((bs.drop offset).take 4)

/-- `Reset(image)` (R206): memory and pc from the image, registers and flags 0, status RUNNING. -/
def resetFrom (cfg : Config) (image : Image) : State where
  cfg := cfg
  pc := BitVec.ofNat 8 image.pc
  flags := 0#8
  regs := Vector.replicate 8 0#8
  mem := Memory.ofBytes 0 image.payload
  status := .running
  inputs := []
  ioLog := []

/-- DEFAULT_IMAGE (R207): MEMSIZE bytes and a pc below MEMSIZE, both free values (log entry 6). -/
def defaultImage (cfg : Config) : Image where
  pc := Config.defaultImagePc % cfg.memSize
  payload := (List.range cfg.memSize).map Config.defaultImageByte

/-- The image in a byte string, or the first load fault in the order of R202. The `size` field is not checked, and bytes after
the payload are ignored (R204). -/
def parseImage (cfg : Config) (bs : List Byte) : Except LoadFault Image :=
  if bs.length < Config.imageHeaderSize then .error .shortHeader
  else if headerField cfg bs 0 ≠ Config.imageMagic then .error .badMagic
  else if headerField cfg bs 8 ≠ cfg.memSize then .error .memsizeMismatch
  else if cfg.memSize ≤ headerField cfg bs 12 then .error .pcOutOfRange
  else if bs.length - Config.imageHeaderSize < cfg.memSize then .error .shortPayload
  else .ok { pc := headerField cfg bs 12, payload := (bs.drop Config.imageHeaderSize).take cfg.memSize }

/-- The load (R200, R202, R206, R207): the reset state, or a load fault and no state. -/
def load (cfg : Config) : ImageSource → Except LoadFault State
  | .nothing => .ok (resetFrom cfg (defaultImage cfg))
  | .unreadable => .error .loadUnreadable
  | .bytes bs =>
    match parseImage cfg bs with
    | .ok image => .ok (resetFrom cfg image)
    | .error f => .error f

/-- The whole memory, `mem[0..MEMSIZE-1]` (R208). -/
def State.memoryBytes (s : State) : List Byte := (List.range s.cfg.memSize).map s.mem.read

/-- The image a HALTED core is saved as (R208); a core that is not HALTED is not saved (D24). -/
def saveImage (s : State) : Option (List Byte) :=
  match s.status with
  | .halted _ =>
    some (writeU32 s.cfg.imageByteOrder Config.imageMagic ++
      (writeU32 s.cfg.imageByteOrder (Config.imageHeaderSize + s.cfg.memSize) ++
        (writeU32 s.cfg.imageByteOrder s.cfg.memSize ++
          (writeU32 s.cfg.imageByteOrder s.pc.toNat ++ s.memoryBytes))))
  | .running => none
  | .faulted _ => none

/-- The process exit status of a finished run: 0 on normal completion (60_exceptions.md R185), FAULT_EXIT_STATUS after a fault
(D24, log entry 7); a running core has none. -/
def State.exitStatus (s : State) : Option Nat :=
  match s.status with
  | .running => none
  | .halted _ => some 0
  | .faulted _ => some Config.faultExitStatus

/-- The process exit status when the load fails (70_reset_and_hazards.md R202): 1. -/
def loadExitStatus : Except LoadFault State → Option Nat
  | .ok _ => none
  | .error _ => some 1

end Sys2Proof.Machine
end

