-- ==== Sys2Proof/Safety.lean ====
section
/-! DEFINITION. The terms claims are stated in: the state invariant, operand contents and stores written straight from
20_memory.md R43 to R45, runs and how they end (40_dispatch.md R88), and what a safe run is. -/
namespace Sys2Proof.Machine

/-- An operand names something: every literal does, a reference when its index is a register's or lies in memory (R43). -/
def inRange (cfg : Config) : Operand → Prop
  | .lit _ => True
  | .ref i => i.toNat < 8 ∨ i.toNat < cfg.memSize

/-- The value of an operand (20_memory.md R44): a literal's number, or the contents of `x[i]` for an index below 8 and of
`mem[i]` from 8 on. -/
def State.valueOf (s : State) : Operand → Byte
  | .lit n => BitVec.ofNat 8 n.toNat
  | .ref i => if h : i.toNat < 8 then s.regs[i.toNat] else s.mem.read i.toNat

/-- The state after `v` is stored through a reference with index `i` (20_memory.md R45): in `x[i]` for an index below 8, in
`mem[i]` from 8 on. -/
def State.stored (s : State) (i : Payload) (v : Byte) : State :=
  if h : i.toNat < 8 then { s with regs := s.regs.set i.toNat v } else { s with mem := s.mem.write i.toNat v }

/-- The state a fault of the instruction at `s.pc` leaves when `len` of its bytes have been fetched (60_exceptions.md R182, R184):
the state before the instruction, with `pc` advanced and `status` set. -/
def State.faultedWith (s : State) (len : Byte) (c : FaultCause) : State :=
  { s with pc := s.pc + len, status := .faulted { cause := c, addr := s.pc, pc := s.pc + len } }

/-- The flag byte of 41_move_arith.md R102 for a zero and a carry condition. -/
def flagByte (cfg : Config) (zero carry : Bool) : Byte :=
  (if zero then 1#8 <<< cfg.flagZeroBit.val else 0#8) ||| (if carry then 1#8 <<< cfg.flagCarryBit.val else 0#8)

/-- The value names this channel of the port (43_io.md R140). -/
def namesChannel (cfg : Config) (c : Byte) : PortChannel → Prop
  | .character => c = cfg.chanCharacter
  | .numeric => c = cfg.chanNumeric

/-- The u32 header field at a byte offset of an image (70_reset_and_hazards.md R201): its four bytes weighted by IMAGE_BYTE_ORDER. -/
def u32At (cfg : Config) (bs : List Byte) (o : Nat) : Nat :=
  match cfg.imageByteOrder with
  | .little =>
    (bs.getD o 0#8).toNat + 256 * (bs.getD (o + 1) 0#8).toNat + 65536 * (bs.getD (o + 2) 0#8).toNat +
      16777216 * (bs.getD (o + 3) 0#8).toNat
  | .big =>
    16777216 * (bs.getD o 0#8).toNat + 65536 * (bs.getD (o + 1) 0#8).toNat + 256 * (bs.getD (o + 2) 0#8).toNat +
      (bs.getD (o + 3) 0#8).toNat

/-- What the run state says of the pc (10_state.md R25, 40_dispatch.md R84, R85, 60_exceptions.md R182, R184). -/
def State.statusOk (s : State) : Prop :=
  match s.status with
  | .running => True
  | .halted _ => 1 ≤ s.pc.toNat ∧ s.pc.toNat ≤ s.cfg.memSize
  | .faulted f =>
    f.pc = s.pc ∧
    match f.cause with
    | .fetchOutOfRange i => i = f.pc ∧ s.cfg.memSize ≤ i.toNat
    | .literalOperand _ => f.addr.toNat < f.pc.toNat ∧ f.pc.toNat ≤ s.cfg.memSize
    | .addressOutOfRange i => 8 ≤ i.toNat ∧ s.cfg.memSize ≤ i.toNat ∧ f.addr.toNat < f.pc.toNat ∧ f.pc.toNat ≤ s.cfg.memSize
    | .unsupportedChannel c =>
      c ≠ s.cfg.chanCharacter ∧ c ≠ s.cfg.chanNumeric ∧ f.addr.toNat < f.pc.toNat ∧ f.pc.toNat ≤ s.cfg.memSize

/-- The invariant of the machine: the parameters are legal (00_scope.md R7, R8), memory is in canonical form and lies below
MEMSIZE (10_state.md R29), the reserved flag bits are 0 (R26), and the run state agrees with the pc. -/
structure State.Inv (s : State) : Prop where
  cfgValid      : s.cfg.valid = true
  memWf         : s.mem.wf = true
  memInPool     : ∀ c ∈ s.mem, c.1 < s.cfg.memSize
  flagsReserved : ∀ k : Fin 8, k ≠ s.cfg.flagZeroBit → k ≠ s.cfg.flagCarryBit → s.flags.getLsbD k = false
  statusOk      : s.statusOk

/-- The state after one step, or the same state where no step is enabled. -/
def State.tick (s : State) : State :=
  match step s with
  | .next t => t
  | .fault _ => s
  | .refused _ => s

/-- The channel on which an INPUT asks the environment for a value and takes no step until it gets one (43_io.md R141). -/
def State.awaitedChannel (s : State) : Option PortChannel :=
  match step s with
  | .next _ => none
  | .fault (.awaitingInput p) => some p
  | .fault (.coreHalted _) => none
  | .fault (.coreFaulted _) => none
  | .refused _ => none

/-- An environment (43_io.md R141): its answer to each request for a value, by what has crossed the port so far and the channel
asked; any integer, or `none` for a request it never answers (log entry 4). -/
abbrev Environment := List IoEvent → PortChannel → Option Int

/-- The state once the environment has answered the request in it, if there is one and it is ever answered. -/
def State.answered (env : Environment) (s : State) : State :=
  match s.awaitedChannel with
  | none => s
  | some p =>
    match env s.ioLog p with
    | some v => s.supply v
    | none => s

/-- The state after `n` steps of a run in an environment (40_dispatch.md R88); where no step is enabled it stays. -/
def State.after (env : Environment) (s : State) : Nat → State
  | 0 => s
  | n + 1 => ((s.after env n).answered env).tick

/-- The four outcomes of a run (40_dispatch.md R88). -/
inductive RunOutcome where
  | halted
  | faulted
  | waitingForever
  | diverging
deriving DecidableEq, Repr

/-- The run from `s` in an environment ends in this outcome (40_dispatch.md R88): it reaches HALTED, it reaches FAULTED, it comes
to an INPUT whose request is never answered, or it stays RUNNING and every step completes. -/
def State.EndsIn (env : Environment) (s : State) : RunOutcome → Prop
  | .halted => ∃ n c, (s.after env n).status = .halted c
  | .faulted => ∃ n f, (s.after env n).status = .faulted f
  | .waitingForever => ∃ n p, (s.after env n).awaitedChannel = some p ∧ env (s.after env n).ioLog p = none
  | .diverging => ∀ n, (s.after env n).status = .running ∧ ∃ t, step ((s.after env n).answered env) = .next t

/-- Safe: in no environment does the run fault (40_dispatch.md R88: a faulted run is the source's "malformed program"). -/
def State.SafeRun (s : State) : Prop := ∀ env n f, (s.after env n).status ≠ .faulted f

end Sys2Proof.Machine
end

