-- ==== Sys2Proof/Certificates/Slice0/Obligations.lean ====
section
/-! DEFINITION. The statements for the provers. Each docstring names the rules of spec/ it formalises; a clause that rests on a
choice of the model names its log entry. -/

open Sys2Proof Sys2Proof.Machine

/-! Reset, load and save. -/

/-- The reset state meets the invariant; its image (zeros, pc 0) is the model's choice (log entry 1). -/
def Obligations.ResetStateMeetsInvariant : Prop := State.reset.Inv

/-- `State.reset` is what a load of the image with pc 0 and a payload of zeros builds (the model's choice, log entry 1). -/
def Obligations.ResetIsTheLoadOfTheZeroImage : Prop :=
  load Config.standard (.bytes ([0x17#8, 0x20#8, 0#8, 0#8, 0x90#8, 0#8, 0#8, 0#8, 0x80#8, 0#8, 0#8, 0#8, 0#8, 0#8, 0#8, 0#8] ++
    List.replicate 128 0#8)) = .ok State.reset

/-- 70_reset_and_hazards.md R205, R206: what a successful load of an image builds. -/
def Obligations.ImageLoadBuildsTheResetState : Prop :=
  ∀ (cfg : Config) (bs : List Byte) (t : State), cfg.valid = true → load cfg (.bytes bs) = .ok t →
    (∀ k, k < cfg.memSize → bs[16 + k]? = some (t.mem.read k)) ∧ t.pc.toNat = u32At cfg bs 12 ∧
    (∀ r : Fin 8, t.regs[r] = 0#8) ∧ t.flags = 0#8 ∧ t.status = .running

/-- What a successful load builds in the model's own terms: the parameters it was given, held in `cfg` (log entry 3), and a state
that meets the invariant, memory in canonical form (log entry 2). -/
def Obligations.LoadedStateMeetsInvariant : Prop :=
  ∀ (cfg : Config) (bs : List Byte) (t : State), cfg.valid = true → load cfg (.bytes bs) = .ok t → t.cfg = cfg ∧ t.Inv

/-- 70_reset_and_hazards.md R202: the load faults, in their order, build no state and exit with status 1; an image with none of
them loads. -/
def Obligations.LoadFaultsInOrder : Prop :=
  ∀ (cfg : Config) (bs : List Byte),
    load cfg .unreadable = .error .loadUnreadable ∧
    (bs.length < 16 → load cfg (.bytes bs) = .error .shortHeader) ∧
    (16 ≤ bs.length → u32At cfg bs 0 ≠ 0x2017 → load cfg (.bytes bs) = .error .badMagic) ∧
    (16 ≤ bs.length → u32At cfg bs 0 = 0x2017 → u32At cfg bs 8 ≠ cfg.memSize →
      load cfg (.bytes bs) = .error .memsizeMismatch) ∧
    (16 ≤ bs.length → u32At cfg bs 0 = 0x2017 → u32At cfg bs 8 = cfg.memSize → cfg.memSize ≤ u32At cfg bs 12 →
      load cfg (.bytes bs) = .error .pcOutOfRange) ∧
    (16 ≤ bs.length → u32At cfg bs 0 = 0x2017 → u32At cfg bs 8 = cfg.memSize → u32At cfg bs 12 < cfg.memSize →
      bs.length < 16 + cfg.memSize → load cfg (.bytes bs) = .error .shortPayload) ∧
    (16 + cfg.memSize ≤ bs.length → u32At cfg bs 0 = 0x2017 → u32At cfg bs 8 = cfg.memSize → u32At cfg bs 12 < cfg.memSize →
      ∃ t, load cfg (.bytes bs) = .ok t) ∧
    (∀ src f, load cfg src = .error f → loadExitStatus (load cfg src) = some 1)

/-- 70_reset_and_hazards.md R204: the `size` field is not checked, and bytes after the payload are ignored. -/
def Obligations.SizeFieldAndTrailingBytesAreIgnored : Prop :=
  ∀ (cfg : Config) (magic size size' rest extra : List Byte), magic.length = 4 → size.length = 4 → size'.length = 4 →
    load cfg (.bytes (magic ++ (size ++ rest))) = load cfg (.bytes (magic ++ (size' ++ rest))) ∧
    ∀ t, load cfg (.bytes (magic ++ (size ++ rest))) = .ok t → load cfg (.bytes (magic ++ (size ++ (rest ++ extra)))) = .ok t

/-- 70_reset_and_hazards.md section 2: with no image the core is built from DEFAULT_IMAGE, a pool of bytes and a pc below MEMSIZE,
whatever they are. That the pc is an opaque number taken modulo MEMSIZE is the model's form (log entry 6), and so is the canonical
memory in the invariant (log entry 2). -/
def Obligations.DefaultImageLoadBuildsTheResetState : Prop :=
  ∀ cfg : Config, cfg.valid = true → ∃ t, load cfg .nothing = .ok t ∧
    (∀ k, k < cfg.memSize → t.mem.read k = Config.defaultImageByte k) ∧ t.pc.toNat = Config.defaultImagePc % cfg.memSize ∧
    t.pc.toNat < cfg.memSize ∧ (∀ r : Fin 8, t.regs[r] = 0#8) ∧ t.flags = 0#8 ∧ t.status = .running ∧ t.Inv

/-- 70_reset_and_hazards.md R208: the saved image's fields; a core that is not HALTED is not saved. -/
def Obligations.SavedImageHoldsPcAndMemory : Prop :=
  ∀ s : State, s.cfg.valid = true →
    (∀ c, s.status = .halted c → ∃ bs, saveImage s = some bs ∧ bs.length = 16 + s.cfg.memSize ∧
      u32At s.cfg bs 0 = 0x2017 ∧ u32At s.cfg bs 4 = 16 + s.cfg.memSize ∧ u32At s.cfg bs 8 = s.cfg.memSize ∧
      u32At s.cfg bs 12 = s.pc.toNat ∧ ∀ k, k < s.cfg.memSize → bs[16 + k]? = some (s.mem.read k)) ∧
    ((∀ c, s.status ≠ .halted c) → saveImage s = none)

/-- 70_reset_and_hazards.md R209: saving then loading gives the same pc and memory, and registers and flags 0. -/
def Obligations.SaveThenLoadKeepsPcAndMemory : Prop :=
  ∀ (s : State) (bs : List Byte), s.Inv → saveImage s = some bs → s.pc.toNat < s.cfg.memSize →
    ∃ t, load s.cfg (.bytes bs) = .ok t ∧ t.pc = s.pc ∧ t.mem = s.mem ∧ (∀ r : Fin 8, t.regs[r] = 0#8) ∧ t.flags = 0#8

/-- 70_reset_and_hazards.md R209, the consequence the spec derives: a core halted at the end of the pool saves an image that
does not load. -/
def Obligations.ImageSavedAtPoolEndDoesNotLoad : Prop :=
  ∀ (s : State) (bs : List Byte), s.Inv → saveImage s = some bs → s.pc.toNat = s.cfg.memSize →
    load s.cfg (.bytes bs) = .error .pcOutOfRange

/-! Encoding. -/

/-- 30_encoding.md R61, R62: an odd byte is the literal of its upper seven bits, an even byte the reference. -/
def Obligations.OperandByteIsTagAndPayload : Prop :=
  ∀ b : Byte,
    (b.toNat % 2 = 1 → ∃ n : Payload, n.toNat = b.toNat / 2 ∧ decodeOperand b = .lit n) ∧
    (b.toNat % 2 = 0 → ∃ i : Payload, i.toNat = b.toNat / 2 ∧ decodeOperand b = .ref i)

/-- 30_encoding.md section 2: the two encodings, the refusal above 127 (R63), and the round trips both ways (R64, which the spec
derives from R62 and R63). -/
def Obligations.OperandEncodingsRoundTrip : Prop :=
  (∀ n, n ≤ 127 → ∃ b : Byte, encodeLiteral n = some b ∧ b.toNat = 2 * n + 1 ∧ decodeOperand b = .lit (BitVec.ofNat 7 n)) ∧
  (∀ n, 127 < n → encodeLiteral n = none) ∧
  (∀ i, i ≤ 127 → ∃ b : Byte, encodeReference i = some b ∧ b.toNat = 2 * i ∧ decodeOperand b = .ref (BitVec.ofNat 7 i)) ∧
  ∀ b : Byte, encodeOperand (decodeOperand b) = b

/-- 30_encoding.md R60, R67: no bit of an encoding is dropped, for every instruction, every operand and every injective
OPCODE_VALUE. -/
def Obligations.DecodeOfEncodeIsTheInstruction : Prop :=
  ∀ (cfg : Config) (i : Instr) (rest : List Byte), cfg.valid = true → decode cfg (encode cfg i ++ rest) = .ok (i, rest)

/-- 30_encoding.md R71, R74: an instruction is read from exactly its own encoding, so every byte string has one reading. -/
def Obligations.EncodeOfDecodeIsTheBytes : Prop :=
  ∀ (cfg : Config) (bs rest : List Byte) (i : Instr), decode cfg bs = .ok (i, rest) → bs = encode cfg i ++ rest

/-- 30_encoding.md R68: under the default OPCODE_VALUE the unassigned bytes are 0x0B to 0xFF. -/
def Obligations.DefaultUnassignedBytes : Prop :=
  ∀ b : Byte, decodeMnemonic Config.standard b = none ↔ 0x0B ≤ b.toNat

/-- 30_encoding.md R67: words written out from the opcode map and the examples of the instruction rules. -/
def Obligations.WrittenWordsDecode : Prop :=
  decode Config.standard [0x00#8] = .ok (.suspend, []) ∧
  decode Config.standard [0x01#8, 0x0B#8, 0x02#8] = .ok (.move (.lit 5#7) (.ref 1#7), []) ∧
  decode Config.standard [0x03#8, 0x0B#8, 0x00#8] = .ok (.sub (.lit 5#7) (.ref 0#7), []) ∧
  decode Config.standard [0x05#8, 0x0A#8] = .ok (.jumpRegister (.ref 5#7), []) ∧
  decode Config.standard [0x08#8, 0x03#8, 0x08#8] = .ok (.output (.lit 1#7) (.ref 4#7), []) ∧
  decode Config.standard [0x0A#8, 0x55#8, 0x06#8] = .ok (.addressOfIndirect (.lit 42#7) (.ref 3#7), []) ∧
  decode Config.standard [0x0B#8] = .error (.unassigned 0x0B#8)

/-! Fetch, dispatch and halts. -/

/-- 40_dispatch.md R87: a step from RUNNING runs the instruction its bytes decode to. -/
def Obligations.StepRunsTheDecodedInstruction : Prop :=
  ∀ (s : State) (i : Instr) (rest : List Byte), s.status = .running →
    decode s.cfg (s.bytesFrom s.pc.toNat 3) = .ok (i, rest) → step s = exec i s

/-- 40_dispatch.md R81, R82, R83, R87: when the pool holds an instruction's encoding from `pc` on, the step runs it. -/
def Obligations.EncodedInstructionInMemoryRuns : Prop :=
  ∀ (s : State) (i : Instr), s.cfg.valid = true → s.status = .running → s.pc.toNat + i.length ≤ s.cfg.memSize →
    (∀ k, k < i.length → (encode s.cfg i)[k]? = some (s.mem.read (s.pc.toNat + k))) → step s = exec i s

/-- 40_dispatch.md R85: an unassigned opcode byte halts the core with no change beyond the pc increment. -/
def Obligations.UnassignedOpcodeHalts : Prop :=
  ∀ s : State, s.status = .running → s.pc.toNat < s.cfg.memSize →
    (∀ m, s.cfg.opcodes.value m ≠ s.mem.read s.pc.toNat) →
    step s = .next { s with pc := s.pc + 1#8, status := .halted (.unknownOpcode (s.mem.read s.pc.toNat)) }

/-- 40_dispatch.md R81, 60_exceptions.md R182: a fetch at or beyond MEMSIZE faults, on the opcode byte with the pc as it is, on
operand byte `k` with the pc at that byte. -/
def Obligations.FetchBeyondThePoolFaults : Prop :=
  ∀ s : State, s.status = .running →
    (s.cfg.memSize ≤ s.pc.toNat →
      step s = .next { s with status := .faulted { cause := .fetchOutOfRange s.pc, addr := s.pc, pc := s.pc } }) ∧
    (∀ (m : Mnemonic) (k : Nat), s.cfg.valid = true → s.pc.toNat < s.cfg.memSize →
      s.mem.read s.pc.toNat = s.cfg.opcodes.value m → 1 ≤ k → k ≤ m.arity → s.pc.toNat + k = s.cfg.memSize →
      step s = .next (s.faultedWith (BitVec.ofNat 8 k) (.fetchOutOfRange (BitVec.ofNat 8 s.cfg.memSize))))

/-- 40_dispatch.md R89: no step is defined from HALTED or FAULTED, and both are final. -/
def Obligations.TerminalStatesTakeNoStep : Prop :=
  ∀ s : State,
    (∀ c, s.status = .halted c → step s = .fault (.coreHalted c) ∧ ∀ env n, s.after env n = s) ∧
    (∀ f, s.status = .faulted f → step s = .fault (.coreFaulted f) ∧ ∀ env n, s.after env n = s)

/-- 40_dispatch.md R80, 43_io.md R141, 60_exceptions.md R189: every instruction answers a next state in every state, but for an
INPUT with no value supplied; a RUNNING core has a step unless it waits in one, and any value supplied then enables the step. (That
supplied values are held in a list is the model's choice, log entry 4.) -/
def Obligations.OnlyTheInputWaitStopsARunningCore : Prop :=
  (∀ (i : Instr) (s : State), ((∀ ch dst, i ≠ .input ch dst) ∨ s.inputs ≠ []) → ∃ t, exec i s = .next t) ∧
  (∀ s : State, s.status = .running → (∃ t, step s = .next t) ∨ ∃ p, step s = .fault (.awaitingInput p)) ∧
  ∀ (s : State) (p : PortChannel) (v : Int), step s = .fault (.awaitingInput p) → ∃ t, step (s.supply v) = .next t

/-- 40_dispatch.md R80, 43_io.md R141, R143: no step is enabled exactly where a RUNNING core is at an INPUT whose checks have
passed and no value has been supplied (none in the list, log entry 4). -/
def Obligations.StepWaitsExactlyAtAnUnsuppliedInput : Prop :=
  ∀ (s : State) (p : PortChannel), s.cfg.valid = true →
    (step s = .fault (.awaitingInput p) ↔
      s.status = .running ∧ s.inputs = [] ∧
      ∃ ch i rest, decode s.cfg (s.bytesFrom s.pc.toNat 3) = .ok (.input ch (.ref i), rest) ∧
        inRange s.cfg ch ∧ inRange s.cfg (.ref i) ∧ namesChannel s.cfg (s.valueOf ch) p)

/-! Faults. -/

/-- 60_exceptions.md R182, R184: a fault changes nothing but the pc and the status, and records where and how far the
instruction got. -/
def Obligations.FaultsArePrecise : Prop :=
  ∀ (s t : State) (f : FaultRecord), step s = .next t → t.status = .faulted f →
    t = { s with pc := t.pc, status := .faulted f } ∧ f.addr = s.pc ∧ f.pc = t.pc ∧
    (∀ i, f.cause = .fetchOutOfRange i → t.pc = i) ∧
    (∀ (i : Instr) (rest : List Byte), decode s.cfg (s.bytesFrom s.pc.toNat 3) = .ok (i, rest) →
      t.pc = s.pc + BitVec.ofNat 8 i.length)

/-- 30_encoding.md R66: a literal in an addr or addr-of-reference position faults LITERAL_OPERAND with its position, before any
effect, once the operand before it has passed its checks (60_exceptions.md R183). -/
def Obligations.LiteralInAddrPositionFaults : Prop :=
  ∀ (s : State) (o : Operand) (n : Payload),
    (∀ i, i = .move o (.lit n) ∨ i = .add o (.lit n) ∨ i = .sub o (.lit n) ∨ i = .jumpIfFalse o (.lit n) ∨
        i = .input o (.lit n) ∨ i = .output o (.lit n) ∨ i = .addressOfIndirect o (.lit n) →
      inRange s.cfg o → exec i s = .next (s.faultedWith 3#8 (.literalOperand .two))) ∧
    (∀ j, inRange s.cfg (.ref j) → exec (.addressOf (.ref j) (.lit n)) s = .next (s.faultedWith 3#8 (.literalOperand .two))) ∧
    exec (.addressOf (.lit n) o) s = .next (s.faultedWith 3#8 (.literalOperand .one)) ∧
    exec (.jumpRegister (.lit n)) s = .next (s.faultedWith 2#8 (.literalOperand .one)) ∧
    exec (.markPc (.lit n)) s = .next (s.faultedWith 2#8 (.literalOperand .one))

/-- 40_dispatch.md R83, 60_exceptions.md R183: a reference that names nothing faults ADDRESS_OUT_OF_RANGE, operand 1 before
operand 2. -/
def Obligations.ReferenceBeyondThePoolFaults : Prop :=
  ∀ (s : State) (o : Operand) (j : Payload), ¬ inRange s.cfg (.ref j) →
    (∀ i, i = .move (.ref j) o ∨ i = .add (.ref j) o ∨ i = .sub (.ref j) o ∨ i = .jumpIfFalse (.ref j) o ∨
        i = .input (.ref j) o ∨ i = .output (.ref j) o ∨ i = .addressOf (.ref j) o ∨ i = .addressOfIndirect (.ref j) o →
      exec i s = .next (s.faultedWith 3#8 (.addressOutOfRange j))) ∧
    (∀ i, i = .move o (.ref j) ∨ i = .add o (.ref j) ∨ i = .sub o (.ref j) ∨ i = .jumpIfFalse o (.ref j) ∨
        i = .input o (.ref j) ∨ i = .output o (.ref j) ∨ i = .addressOfIndirect o (.ref j) →
      inRange s.cfg o → exec i s = .next (s.faultedWith 3#8 (.addressOutOfRange j))) ∧
    (∀ k, inRange s.cfg (.ref k) →
      exec (.addressOf (.ref k) (.ref j)) s = .next (s.faultedWith 3#8 (.addressOutOfRange j))) ∧
    exec (.jumpRegister (.ref j)) s = .next (s.faultedWith 2#8 (.addressOutOfRange j)) ∧
    exec (.markPc (.ref j)) s = .next (s.faultedWith 2#8 (.addressOutOfRange j))

/-- 43_io.md R140, R143, R144: STRING and a value that names no channel fault UNSUPPORTED_CHANNEL, with no value consumed and no
event emitted. -/
def Obligations.UnsupportedChannelFaults : Prop :=
  ∀ (s : State) (ch : Operand) (i : Payload), s.cfg.valid = true → inRange s.cfg ch → inRange s.cfg (.ref i) →
    (s.valueOf ch = s.cfg.chanString ∨ ∀ p, ¬ namesChannel s.cfg (s.valueOf ch) p) →
    exec (.input ch (.ref i)) s = .next (s.faultedWith 3#8 (.unsupportedChannel (s.valueOf ch))) ∧
    exec (.output ch (.ref i)) s = .next (s.faultedWith 3#8 (.unsupportedChannel (s.valueOf ch)))

/-- 44_address.md R161: an odd pointer byte faults LITERAL_OPERAND(INDIRECT), an even one whose index names nothing
ADDRESS_OUT_OF_RANGE, and nothing is written. -/
def Obligations.BadPointerFaults : Prop :=
  ∀ (s : State) (src : Operand) (i : Payload), inRange s.cfg src → inRange s.cfg (.ref i) →
    ((s.valueOf (.ref i)).toNat % 2 = 1 →
      exec (.addressOfIndirect src (.ref i)) s = .next (s.faultedWith 3#8 (.literalOperand .indirect))) ∧
    (∀ j : Payload, (s.valueOf (.ref i)).toNat = 2 * j.toNat → ¬ inRange s.cfg (.ref j) →
      exec (.addressOfIndirect src (.ref i)) s = .next (s.faultedWith 3#8 (.addressOutOfRange j)))

/-- 42_control.md R124: a jump out of the pool completes, and the next step's opcode fetch faults. -/
def Obligations.JumpOutOfThePoolFaultsAtTheNextFetch : Prop :=
  ∀ (s : State) (i : Instr) (rest : List Byte) (addr : Payload) (g : Byte), s.status = .running →
    inRange s.cfg (.ref addr) → decode s.cfg (s.bytesFrom s.pc.toNat 3) = .ok (i, rest) →
    (i = .jumpRegister (.ref addr) ∨ ∃ m, i = .jumpIfFalse m (.ref addr) ∧ inRange s.cfg m ∧ s.flags &&& s.valueOf m = 0#8) →
    g = s.valueOf (.ref addr) → s.cfg.memSize ≤ g.toNat →
    step s = .next { s with pc := g } ∧
    step { s with pc := g } =
      .next { s with pc := g, status := .faulted { cause := .fetchOutOfRange g, addr := g, pc := g } }

/-! What each instruction does. -/

/-- 40_dispatch.md R84: the net effect of SUSPEND. -/
def Obligations.SuspendHalts : Prop :=
  ∀ s : State, exec .suspend s = .next { s with pc := s.pc + 1#8, status := .halted .suspend }

/-- 41_move_arith.md R103: MOVE stores src's value in dst. -/
def Obligations.MoveStoresTheSource : Prop :=
  ∀ (s : State) (src : Operand) (i : Payload), inRange s.cfg src → inRange s.cfg (.ref i) →
    exec (.move src (.ref i)) s = .next { s.stored i (s.valueOf src) with pc := s.pc + 3#8 }

/-- 41_move_arith.md R100, R102, R104: ADD stores the sum modulo 256 and overwrites all of `flags`; ZERO when the sum is 0
modulo 256, CARRY when it is 256 or more. -/
def Obligations.AddStoresTheSumAndFlags : Prop :=
  ∀ (s : State) (src : Operand) (i : Payload) (old delta : Nat), inRange s.cfg src → inRange s.cfg (.ref i) →
    old = (s.valueOf (.ref i)).toNat → delta = (s.valueOf src).toNat →
    exec (.add src (.ref i)) s = .next { s.stored i (BitVec.ofNat 8 ((old + delta) % 256)) with
      pc := s.pc + 3#8, flags := flagByte s.cfg (decide ((old + delta) % 256 = 0)) (decide (256 ≤ old + delta)) }

/-- 41_move_arith.md R101, R102, R105: SUB stores dst - src modulo 256 and overwrites all of `flags`; ZERO when the two are
equal, CARRY when src is the larger. -/
def Obligations.SubStoresTheDifferenceAndFlags : Prop :=
  ∀ (s : State) (src : Operand) (i : Payload) (old delta : Nat), inRange s.cfg src → inRange s.cfg (.ref i) →
    old = (s.valueOf (.ref i)).toNat → delta = (s.valueOf src).toNat →
    exec (.sub src (.ref i)) s = .next { s.stored i (BitVec.ofInt 8 (((old : Int) - delta) % 256)) with
      pc := s.pc + 3#8, flags := flagByte s.cfg (decide (((old : Int) - delta) % 256 = 0)) (decide (old < delta)) }

/-- 42_control.md R121: the jump is taken when every flag bit named in the mask is clear, else the next instruction follows. -/
def Obligations.JumpIfFalseTestsTheNamedFlags : Prop :=
  ∀ (s : State) (m : Operand) (i : Payload), inRange s.cfg m → inRange s.cfg (.ref i) →
    ((∀ k : Fin 8, (s.valueOf m).getLsbD k = true → s.flags.getLsbD k = false) →
      exec (.jumpIfFalse m (.ref i)) s = .next { s with pc := s.valueOf (.ref i) }) ∧
    ((∃ k : Fin 8, (s.valueOf m).getLsbD k = true ∧ s.flags.getLsbD k = true) →
      exec (.jumpIfFalse m (.ref i)) s = .next { s with pc := s.pc + 3#8 })

/-- 42_control.md R122: the pc becomes the contents of addr. -/
def Obligations.JumpRegisterGoesToTheContents : Prop :=
  ∀ (s : State) (i : Payload), inRange s.cfg (.ref i) →
    exec (.jumpRegister (.ref i)) s = .next { s with pc := s.valueOf (.ref i) }

/-- 42_control.md R123: MARK-PC stores the address just past itself, as a plain number. -/
def Obligations.MarkPcStoresTheNextAddress : Prop :=
  ∀ (s : State) (i : Payload), inRange s.cfg (.ref i) →
    exec (.markPc (.ref i)) s = .next { s.stored i (s.pc + 2#8) with pc := s.pc + 2#8 }

/-- 43_io.md R141, R143: INPUT takes the value the environment supplied and stores it modulo 256. -/
def Obligations.InputStoresTheSuppliedValue : Prop :=
  ∀ (s : State) (ch : Operand) (i : Payload) (p : PortChannel) (v : Int) (rest : List Int), s.cfg.valid = true →
    inRange s.cfg ch → inRange s.cfg (.ref i) → namesChannel s.cfg (s.valueOf ch) p → s.inputs = v :: rest →
    exec (.input ch (.ref i)) s = .next { s.stored i (BitVec.ofNat 8 (v % 256).toNat) with
      pc := s.pc + 3#8, inputs := rest, ioLog := s.ioLog ++ [.consumed p v] }

/-- 43_io.md R141: with no value supplied INPUT takes no step; once one is supplied, whatever it is, it completes (the list of
supplied values: log entry 4; the record: log entry 5). -/
def Obligations.InputWaitsForTheEnvironment : Prop :=
  ∀ (s : State) (ch : Operand) (i : Payload) (p : PortChannel), s.cfg.valid = true → inRange s.cfg ch →
    inRange s.cfg (.ref i) → namesChannel s.cfg (s.valueOf ch) p → s.inputs = [] →
    exec (.input ch (.ref i)) s = .fault (.awaitingInput p) ∧
    ∀ v, ∃ t, exec (.input ch (.ref i)) (s.supply v) = .next t ∧ t.pc = s.pc + 3#8 ∧ t.inputs = [] ∧
      t.ioLog = s.ioLog ++ [.consumed p v]

/-- 43_io.md R142, R144: OUTPUT emits one event with src's contents and does not wait. -/
def Obligations.OutputEmitsTheContents : Prop :=
  ∀ (s : State) (ch : Operand) (i : Payload) (p : PortChannel), s.cfg.valid = true → inRange s.cfg ch →
    inRange s.cfg (.ref i) → namesChannel s.cfg (s.valueOf ch) p →
    exec (.output ch (.ref i)) s = .next { s with
      pc := s.pc + 3#8, ioLog := s.ioLog ++ [.emitted p (s.valueOf (.ref i))] }

/-- 44_address.md R160: ADDRESS-OF stores twice the index of its ref operand. -/
def Obligations.AddressOfStoresThePointerByte : Prop :=
  ∀ (s : State) (i j : Payload), inRange s.cfg (.ref i) → inRange s.cfg (.ref j) →
    exec (.addressOf (.ref i) (.ref j)) s = .next { s.stored j (BitVec.ofNat 8 (2 * i.toNat)) with pc := s.pc + 3#8 }

/-- 44_address.md R161: ADDRESS-OF-INDIRECT stores src's value where the pointer byte in ref's cell points. -/
def Obligations.AddressOfIndirectStoresThroughThePointer : Prop :=
  ∀ (s : State) (src : Operand) (i j : Payload), inRange s.cfg src → inRange s.cfg (.ref i) →
    (s.valueOf (.ref i)).toNat = 2 * j.toNat → inRange s.cfg (.ref j) →
    exec (.addressOfIndirect src (.ref i)) s = .next { s.stored j (s.valueOf src) with pc := s.pc + 3#8 }

/-- 44_address.md R162, which the spec derives: ADDRESS-OF x, p then ADDRESS-OF-INDIRECT v, p stores v into x. -/
def Obligations.PointerIdiomStoresIntoTheCell : Prop :=
  ∀ (s t u : State) (x p : Payload) (v : Operand), s.Inv → inRange s.cfg (.ref x) → inRange s.cfg (.ref p) →
    inRange s.cfg v → exec (.addressOf (.ref x) (.ref p)) s = .next t →
    exec (.addressOfIndirect v (.ref p)) t = .next u → u.valueOf (.ref x) = t.valueOf v ∧ u.status = s.status

/-! What instructions leave alone. -/

/-- The frame of the instructions that store through a dst operand (10_state.md R35). -/
def Obligations.StoringInstructionsChangeOnlyTheirDestination : Prop :=
  ∀ (i : Instr) (o d : Operand) (s t : State),
    (i = .move o d ∨ i = .add o d ∨ i = .sub o d ∨ i = .addressOf o d ∨ i = .input o d ∨ i = .markPc d) →
    exec i s = .next t →
    (∀ r : Fin 8, (∀ j, d = .ref j → locate s.cfg j ≠ some (.reg r)) → t.regs[r] = s.regs[r]) ∧
    (∀ j a, d = .ref j → locate s.cfg j = some (.mem a) → ∀ b, b ≠ a → t.mem.read b = s.mem.read b) ∧
    ((∀ j a, d = .ref j → locate s.cfg j ≠ some (.mem a)) → ∀ b, t.mem.read b = s.mem.read b) ∧
    (i ≠ .add o d → i ≠ .sub o d → t.flags = s.flags) ∧
    (i ≠ .input o d → t.inputs = s.inputs ∧ t.ioLog = s.ioLog) ∧
    t.cfg = s.cfg ∧ (t.status = s.status ∨ ∃ f, t.status = .faulted f)

/-- The frame of ADDRESS-OF-INDIRECT: the cell its pointer byte names, read before the store (10_state.md R35). -/
def Obligations.IndirectStoreChangesOnlyThePointedCell : Prop :=
  ∀ (src ref : Operand) (s t : State), exec (.addressOfIndirect src ref) s = .next t →
    (∀ r : Fin 8, (∀ j, decodeOperand (s.valueOf ref) = .ref j → locate s.cfg j ≠ some (.reg r)) → t.regs[r] = s.regs[r]) ∧
    (∀ j a, decodeOperand (s.valueOf ref) = .ref j → locate s.cfg j = some (.mem a) →
      ∀ b, b ≠ a → t.mem.read b = s.mem.read b) ∧
    ((∀ j a, decodeOperand (s.valueOf ref) = .ref j → locate s.cfg j ≠ some (.mem a)) →
      ∀ b, t.mem.read b = s.mem.read b) ∧
    t.flags = s.flags ∧ t.inputs = s.inputs ∧ t.ioLog = s.ioLog ∧ t.cfg = s.cfg ∧
    (t.status = s.status ∨ ∃ f, t.status = .faulted f)

/-- The frame of the instructions that store nothing (10_state.md R35, 42_control.md R120). -/
def Obligations.OtherInstructionsStoreNothing : Prop :=
  ∀ (i : Instr) (s t : State),
    (i = .suspend ∨ (∃ m a, i = .jumpIfFalse m a) ∨ (∃ a, i = .jumpRegister a) ∨ ∃ c a, i = .output c a) →
    exec i s = .next t →
    t.regs = s.regs ∧ (∀ b, t.mem.read b = s.mem.read b) ∧ t.flags = s.flags ∧ t.inputs = s.inputs ∧ t.cfg = s.cfg ∧
    ((∀ c a, i ≠ .output c a) → t.ioLog = s.ioLog) ∧
    (i ≠ .suspend → t.status = s.status ∨ ∃ f, t.status = .faulted f)

/-! Rules of the whole machine. -/

/-- 41_move_arith.md R102: a completed ADD or SUB overwrites all of `flags`; every other step leaves them untouched. -/
def Obligations.OnlyAddAndSubWriteTheFlags : Prop :=
  ∀ s t : State, step s = .next t →
    (∀ src dst rest, s.instructionAt = .ok (.add src dst, rest) → (∀ f, t.status ≠ .faulted f) →
      t.flags = flagByte s.cfg (decide ((s.valueOf dst).toNat + (s.valueOf src).toNat = 256 ∨
          (s.valueOf dst).toNat + (s.valueOf src).toNat = 0))
        (decide (256 ≤ (s.valueOf dst).toNat + (s.valueOf src).toNat))) ∧
    (∀ src dst rest, s.instructionAt = .ok (.sub src dst, rest) → (∀ f, t.status ≠ .faulted f) →
      t.flags = flagByte s.cfg (decide (s.valueOf dst = s.valueOf src))
        (decide ((s.valueOf dst).toNat < (s.valueOf src).toNat))) ∧
    ((∀ src dst rest, s.instructionAt ≠ .ok (.add src dst, rest) ∧ s.instructionAt ≠ .ok (.sub src dst, rest)) →
      t.flags = s.flags)

/-- 20_memory.md R43, R50: no step changes the first eight bytes of the pool, which only fetch and the load reach. -/
def Obligations.NoStepWritesTheFirstEightBytes : Prop :=
  ∀ s t : State, step s = .next t → ∀ a, a < 8 → t.mem.read a = s.mem.read a

/-- 43_io.md R142, R145, 10_state.md R33: the parameters never change; only INPUT consumes a value, the oldest supplied, and only
OUTPUT emits an event, after all earlier ones. -/
def Obligations.OnlyInputAndOutputCrossThePort : Prop :=
  ∀ s t : State, step s = .next t → t.cfg = s.cfg ∧
    ((t.inputs = s.inputs ∧ t.ioLog = s.ioLog) ∨
      (∃ ch dst rest p v, s.instructionAt = .ok (.input ch dst, rest) ∧ s.inputs = v :: t.inputs ∧
        t.ioLog = s.ioLog ++ [.consumed p v]) ∨
      (∃ ch src rest p v, s.instructionAt = .ok (.output ch src, rest) ∧ t.inputs = s.inputs ∧
        t.ioLog = s.ioLog ++ [.emitted p v]))

/-- Every step from a state that meets the invariant leads to one that meets it (10_state.md R24, R26, R29, 60_exceptions.md
R182, R184). -/
def Obligations.EveryStepKeepsTheInvariant : Prop :=
  ∀ s t : State, s.Inv → step s = .next t → t.Inv

/-- Every state of a run in any environment meets the invariant when the first does: what supplies a value keeps it, as every
step does (10_state.md R24, R26, R29, 60_exceptions.md R182, R184; canonical memory: log entry 2). -/
def Obligations.EveryRunKeepsTheInvariant : Prop :=
  ∀ (env : Environment) (s : State) (n : Nat), s.Inv → (s.after env n).Inv

/-- 40_dispatch.md R88: in every environment a run has exactly one of the four outcomes (the environment as a function of what
has crossed the port: log entry 4). -/
def Obligations.RunHasExactlyOneOutcome : Prop :=
  ∀ (env : Environment) (s : State), ∃! o : RunOutcome, s.EndsIn env o

/-- 40_dispatch.md R88, 70_reset_and_hazards.md R213: in an environment that answers every request no run waits forever: it halts,
faults or diverges (log entry 4). -/
def Obligations.AnsweredRunNeverWaitsForever : Prop :=
  ∀ (env : Environment) (s : State), (∀ log p, env log p ≠ none) →
    s.EndsIn env .halted ∨ s.EndsIn env .faulted ∨ s.EndsIn env .diverging

/-- 40_dispatch.md R88, its example: JUMP-REGISTER whose register or memory byte holds the jump's own address diverges, in every
environment. -/
def Obligations.JumpToItselfDiverges : Prop :=
  ∀ (env : Environment) (s : State) (k : Payload) (rest : List Byte), s.status = .running → inRange s.cfg (.ref k) →
    decode s.cfg (s.bytesFrom s.pc.toNat 3) = .ok (.jumpRegister (.ref k), rest) → s.valueOf (.ref k) = s.pc →
    s.EndsIn env .diverging

/-! Operand access, memory and the ALU. -/

/-- 20_memory.md R43, R44, R45: the reference-space map, and what `ReadOp` and `WriteOp` do on each part of it. -/
def Obligations.OperandAccessFollowsTheReferenceMap : Prop :=
  ∀ (s : State) (slot : OperandPos) (v : Byte) (n i : Payload),
    (∃ b : Byte, s.readOp (.lit n) = .ok b ∧ b.toNat = n.toNat) ∧
    s.writeOp slot (.lit n) v = .error (.fault (.literalOperand slot)) ∧
    (∀ h : i.toNat < 8, s.readOp (.ref i) = .ok s.regs[i.toNat] ∧
      s.writeOp slot (.ref i) v = .ok { s with regs := s.regs.set i.toNat v }) ∧
    (8 ≤ i.toNat → i.toNat < s.cfg.memSize → s.readOp (.ref i) = .ok (s.mem.read i.toNat) ∧
      s.writeOp slot (.ref i) v = .ok { s with mem := s.mem.write i.toNat v }) ∧
    (8 ≤ i.toNat → s.cfg.memSize ≤ i.toNat → s.readOp (.ref i) = .error (.fault (.addressOutOfRange i)) ∧
      s.writeOp slot (.ref i) v = .error (.fault (.addressOutOfRange i)))

/-- 20_memory.md R51: a read after a store gives the value stored, and every other reference reads as before. -/
def Obligations.StoreThenLoadReturnsTheValue : Prop :=
  ∀ (s : State) (i : Payload) (v : Byte), s.mem.wf = true →
    (s.stored i v).valueOf (.ref i) = v ∧ (∀ j : Payload, j ≠ i → (s.stored i v).valueOf (.ref j) = s.valueOf (.ref j))

/-- 20_memory.md R52: a store to memory is seen by the very next fetch of that byte, and a store to a register changes no fetched
byte. -/
def Obligations.FetchSeesStores : Prop :=
  ∀ (s : State) (i : Payload) (v : Byte), s.mem.wf = true →
    (8 ≤ i.toNat → i.toNat < s.cfg.memSize → ∀ n, (s.stored i v).bytesFrom i.toNat (n + 1) =
      v :: s.bytesFrom (i.toNat + 1) n) ∧
    (i.toNat < 8 → ∀ a n, (s.stored i v).bytesFrom a n = s.bytesFrom a n)

/-- 41_move_arith.md R107, which the spec derives: the two definitions of each carry agree. -/
def Obligations.CarryDefinitionsAgree : Prop :=
  ∀ old delta : Byte, ((aluAdd old delta).carry = true ↔ 256 ≤ old.toNat + delta.toNat) ∧
    ((aluSub old delta).carry = true ↔ old.toNat < delta.toNat)

/-- 43_io.md R142, R144: NUMERIC output renders as the decimal digits of the value, at least one and without leading zeros (0 as
"0"), and a newline; CHARACTER output as the one code (codes: log entry 16). -/
def Obligations.OutputRendersAsDecimalOrCode : Prop :=
  ∀ v : Byte, renderOutput (.character, v) = [v.toNat] ∧
    ∃ ds, renderOutput (.numeric, v) = ds ++ [10] ∧ ds ≠ [] ∧ (∀ d ∈ ds, 48 ≤ d ∧ d ≤ 57) ∧
      ds.foldl (fun acc d => 10 * acc + (d - 48)) 0 = v.toNat ∧ (ds.head? = some 48 → ds = [48])
end

