-- ==== Sys2Proof/Laws/State.lean ====
section
/-! SUPPORT. One lemma per field per update of the state, each true by rfl, so that no later proof unfolds a record update. -/
namespace Sys2Proof.Machine.State

variable (s : State)

@[simp] theorem setPc_cfg (t : Byte) : (s.setPc t).cfg = s.cfg := rfl
@[simp] theorem setPc_pc (t : Byte) : (s.setPc t).pc = t := rfl
@[simp] theorem setPc_flags (t : Byte) : (s.setPc t).flags = s.flags := rfl
@[simp] theorem setPc_regs (t : Byte) : (s.setPc t).regs = s.regs := rfl
@[simp] theorem setPc_mem (t : Byte) : (s.setPc t).mem = s.mem := rfl
@[simp] theorem setPc_status (t : Byte) : (s.setPc t).status = s.status := rfl
@[simp] theorem setPc_inputs (t : Byte) : (s.setPc t).inputs = s.inputs := rfl
@[simp] theorem setPc_ioLog (t : Byte) : (s.setPc t).ioLog = s.ioLog := rfl

@[simp] theorem setFlags_cfg (v : Byte) : (s.setFlags v).cfg = s.cfg := rfl
@[simp] theorem setFlags_pc (v : Byte) : (s.setFlags v).pc = s.pc := rfl
@[simp] theorem setFlags_flags (v : Byte) : (s.setFlags v).flags = v := rfl
@[simp] theorem setFlags_regs (v : Byte) : (s.setFlags v).regs = s.regs := rfl
@[simp] theorem setFlags_mem (v : Byte) : (s.setFlags v).mem = s.mem := rfl
@[simp] theorem setFlags_status (v : Byte) : (s.setFlags v).status = s.status := rfl
@[simp] theorem setFlags_inputs (v : Byte) : (s.setFlags v).inputs = s.inputs := rfl
@[simp] theorem setFlags_ioLog (v : Byte) : (s.setFlags v).ioLog = s.ioLog := rfl

@[simp] theorem setReg_cfg (r : Fin 8) (v : Byte) : (s.setReg r v).cfg = s.cfg := rfl
@[simp] theorem setReg_pc (r : Fin 8) (v : Byte) : (s.setReg r v).pc = s.pc := rfl
@[simp] theorem setReg_flags (r : Fin 8) (v : Byte) : (s.setReg r v).flags = s.flags := rfl
@[simp] theorem setReg_regs (r : Fin 8) (v : Byte) : (s.setReg r v).regs = s.regs.set r v := rfl
@[simp] theorem setReg_mem (r : Fin 8) (v : Byte) : (s.setReg r v).mem = s.mem := rfl
@[simp] theorem setReg_status (r : Fin 8) (v : Byte) : (s.setReg r v).status = s.status := rfl
@[simp] theorem setReg_inputs (r : Fin 8) (v : Byte) : (s.setReg r v).inputs = s.inputs := rfl
@[simp] theorem setReg_ioLog (r : Fin 8) (v : Byte) : (s.setReg r v).ioLog = s.ioLog := rfl

@[simp] theorem setMem_cfg (a : Nat) (v : Byte) : (s.setMem a v).cfg = s.cfg := rfl
@[simp] theorem setMem_pc (a : Nat) (v : Byte) : (s.setMem a v).pc = s.pc := rfl
@[simp] theorem setMem_flags (a : Nat) (v : Byte) : (s.setMem a v).flags = s.flags := rfl
@[simp] theorem setMem_regs (a : Nat) (v : Byte) : (s.setMem a v).regs = s.regs := rfl
@[simp] theorem setMem_mem (a : Nat) (v : Byte) : (s.setMem a v).mem = s.mem.write a v := rfl
@[simp] theorem setMem_status (a : Nat) (v : Byte) : (s.setMem a v).status = s.status := rfl
@[simp] theorem setMem_inputs (a : Nat) (v : Byte) : (s.setMem a v).inputs = s.inputs := rfl
@[simp] theorem setMem_ioLog (a : Nat) (v : Byte) : (s.setMem a v).ioLog = s.ioLog := rfl

@[simp] theorem setStatus_cfg (st : Status) : (s.setStatus st).cfg = s.cfg := rfl
@[simp] theorem setStatus_pc (st : Status) : (s.setStatus st).pc = s.pc := rfl
@[simp] theorem setStatus_flags (st : Status) : (s.setStatus st).flags = s.flags := rfl
@[simp] theorem setStatus_regs (st : Status) : (s.setStatus st).regs = s.regs := rfl
@[simp] theorem setStatus_mem (st : Status) : (s.setStatus st).mem = s.mem := rfl
@[simp] theorem setStatus_status (st : Status) : (s.setStatus st).status = st := rfl
@[simp] theorem setStatus_inputs (st : Status) : (s.setStatus st).inputs = s.inputs := rfl
@[simp] theorem setStatus_ioLog (st : Status) : (s.setStatus st).ioLog = s.ioLog := rfl

@[simp] theorem setInputs_cfg (vs : List Int) : (s.setInputs vs).cfg = s.cfg := rfl
@[simp] theorem setInputs_pc (vs : List Int) : (s.setInputs vs).pc = s.pc := rfl
@[simp] theorem setInputs_flags (vs : List Int) : (s.setInputs vs).flags = s.flags := rfl
@[simp] theorem setInputs_regs (vs : List Int) : (s.setInputs vs).regs = s.regs := rfl
@[simp] theorem setInputs_mem (vs : List Int) : (s.setInputs vs).mem = s.mem := rfl
@[simp] theorem setInputs_status (vs : List Int) : (s.setInputs vs).status = s.status := rfl
@[simp] theorem setInputs_inputs (vs : List Int) : (s.setInputs vs).inputs = vs := rfl
@[simp] theorem setInputs_ioLog (vs : List Int) : (s.setInputs vs).ioLog = s.ioLog := rfl

@[simp] theorem logIo_cfg (e : IoEvent) : (s.logIo e).cfg = s.cfg := rfl
@[simp] theorem logIo_pc (e : IoEvent) : (s.logIo e).pc = s.pc := rfl
@[simp] theorem logIo_flags (e : IoEvent) : (s.logIo e).flags = s.flags := rfl
@[simp] theorem logIo_regs (e : IoEvent) : (s.logIo e).regs = s.regs := rfl
@[simp] theorem logIo_mem (e : IoEvent) : (s.logIo e).mem = s.mem := rfl
@[simp] theorem logIo_status (e : IoEvent) : (s.logIo e).status = s.status := rfl
@[simp] theorem logIo_inputs (e : IoEvent) : (s.logIo e).inputs = s.inputs := rfl
@[simp] theorem logIo_ioLog (e : IoEvent) : (s.logIo e).ioLog = s.ioLog ++ [e] := rfl

@[simp] theorem halt_cfg (c : HaltCause) : (s.halt c).cfg = s.cfg := rfl
@[simp] theorem halt_pc (c : HaltCause) : (s.halt c).pc = s.pc := rfl
@[simp] theorem halt_flags (c : HaltCause) : (s.halt c).flags = s.flags := rfl
@[simp] theorem halt_regs (c : HaltCause) : (s.halt c).regs = s.regs := rfl
@[simp] theorem halt_mem (c : HaltCause) : (s.halt c).mem = s.mem := rfl
@[simp] theorem halt_status (c : HaltCause) : (s.halt c).status = .halted c := rfl
@[simp] theorem halt_inputs (c : HaltCause) : (s.halt c).inputs = s.inputs := rfl
@[simp] theorem halt_ioLog (c : HaltCause) : (s.halt c).ioLog = s.ioLog := rfl

@[simp] theorem takeFault_cfg (a p : Byte) (c : FaultCause) : (s.takeFault a p c).cfg = s.cfg := rfl
@[simp] theorem takeFault_pc (a p : Byte) (c : FaultCause) : (s.takeFault a p c).pc = p := rfl
@[simp] theorem takeFault_flags (a p : Byte) (c : FaultCause) : (s.takeFault a p c).flags = s.flags := rfl
@[simp] theorem takeFault_regs (a p : Byte) (c : FaultCause) : (s.takeFault a p c).regs = s.regs := rfl
@[simp] theorem takeFault_mem (a p : Byte) (c : FaultCause) : (s.takeFault a p c).mem = s.mem := rfl
@[simp] theorem takeFault_status (a p : Byte) (c : FaultCause) : (s.takeFault a p c).status = .faulted ⟨c, a, p⟩ := rfl
@[simp] theorem takeFault_inputs (a p : Byte) (c : FaultCause) : (s.takeFault a p c).inputs = s.inputs := rfl
@[simp] theorem takeFault_ioLog (a p : Byte) (c : FaultCause) : (s.takeFault a p c).ioLog = s.ioLog := rfl

theorem setPc_eq_with (t : Byte) : s.setPc t = { s with pc := t } := rfl

/-- Taking a fault is the record update claims write. -/
theorem takeFault_eq_faultedWith (len : Byte) (c : FaultCause) :
    s.takeFault s.pc (s.pc + len) c = s.faultedWith len c := rfl

end Sys2Proof.Machine.State
end

