-- ==== Sys2Proof/Laws/Codec.lean ====
section
/-! SUPPORT. The laws of the operand codec and of the opcode map. -/
namespace Sys2Proof

@[simp] theorem decodeOperand_encodeOperand (o : Operand) : decodeOperand (encodeOperand o) = o := by
  cases o with
  | lit n => revert n; decide
  | ref i => revert i; decide

@[simp] theorem encodeOperand_decodeOperand (b : Byte) : encodeOperand (decodeOperand b) = b := by
  revert b; decide

/-- A mnemonic the opcode lookup finds has that byte. -/
theorem value_of_decodeMnemonic {cfg : Config} {b : Byte} {m : Mnemonic} (h : decodeMnemonic cfg b = some m) :
    cfg.opcodes.value m = b := by
  have := List.find?_some h
  simpa using this

theorem Mnemonic.mem_all (m : Mnemonic) : m ∈ Mnemonic.all := by cases m <;> decide

/-- The lookup finds nothing exactly when the byte is outside OPCODE_VALUE's range. -/
theorem decodeMnemonic_eq_none {cfg : Config} {b : Byte} :
    decodeMnemonic cfg b = none ↔ ∀ m, cfg.opcodes.value m ≠ b := by
  unfold decodeMnemonic
  rw [List.find?_eq_none]
  constructor
  · intro h m
    simpa using h m m.mem_all
  · intro h m _
    simpa using h m

/-- Under an injective OPCODE_VALUE the lookup finds the mnemonic whose byte it is. -/
theorem decodeMnemonic_value {cfg : Config} (h : cfg.valid = true) (m : Mnemonic) :
    decodeMnemonic cfg (cfg.opcodes.value m) = some m := by
  have hnd : (Mnemonic.all.map cfg.opcodes.value).Nodup := by
    simp only [Config.valid, Bool.and_eq_true, decide_eq_true_eq] at h
    exact h.1.1.1.1.2
  have hinj := List.inj_on_of_nodup_map hnd
  cases hd : decodeMnemonic cfg (cfg.opcodes.value m) with
  | none => exact absurd rfl (decodeMnemonic_eq_none.1 hd m)
  | some m' => rw [hinj m'.mem_all m.mem_all (value_of_decodeMnemonic hd)]

/-- A decoded instruction has the mnemonic whose operands were decoded. -/
theorem mnemonic_of_decodeOperands {m : Mnemonic} {bs rest : List Byte} {i : Instr}
    (h : decodeOperands m bs = .ok (i, rest)) : i.mnemonic = m := by
  cases m <;> rcases bs with _ | ⟨b₁, _ | ⟨b₂, bs⟩⟩ <;>
    simp only [decodeOperands, decodeOne, decodeTwo, Except.ok.injEq, Prod.mk.injEq, reduceCtorEq] at h <;>
    obtain ⟨rfl, -⟩ := h <;> rfl

theorem length_pos (i : Instr) : 1 ≤ i.length := by simp [Instr.length]

theorem length_le_three (i : Instr) : i.length ≤ 3 := by cases i <;> simp [Instr.length, Instr.mnemonic, Mnemonic.arity]

end Sys2Proof
end

