-- ==== Sys2Proof/Laws/Memory.lean ====
section
/-! SUPPORT. The laws of memory: a read after a write, every other address left alone, the canonical form kept, and equal
reads make equal memories. -/
namespace Sys2Proof.Machine.Memory

theorem wfFrom_mono {lo lo' : Nat} (h : lo ≤ lo') : ∀ {m : Memory}, wfFrom lo' m = true → wfFrom lo m = true
  | [], _ => rfl
  | (k, v) :: rest, hm => by
    simp only [wfFrom, Bool.and_eq_true, decide_eq_true_eq] at hm ⊢
    exact ⟨⟨by omega, hm.1.2⟩, hm.2⟩

theorem wfFrom_bound : ∀ {m : Memory} {lo : Nat}, wfFrom lo m = true → ∀ c ∈ m, lo ≤ c.1
  | [], _, _, c, hc => by simp at hc
  | (k, v) :: rest, lo, hm, c, hc => by
    simp only [wfFrom, Bool.and_eq_true, decide_eq_true_eq] at hm
    rcases List.mem_cons.1 hc with rfl | hc
    · exact hm.1.1
    · have := wfFrom_bound hm.2 c hc
      omega

/-- Below the smallest listed address everything reads 0. -/
theorem read_below : ∀ {m : Memory} {lo a : Nat}, wfFrom lo m = true → a < lo → read m a = 0#8
  | [], _, _, _, _ => rfl
  | (k, v) :: rest, lo, a, hm, ha => by
    simp only [wfFrom, Bool.and_eq_true, decide_eq_true_eq] at hm
    have hk : k ≠ a := by omega
    simp only [read, hk, if_false]
    exact read_below hm.2 (by omega)

theorem read_write_ne {a c : Nat} (b : Byte) (h : c ≠ a) : ∀ m : Memory, read (write m a b) c = read m c
  | [] => by
    have : a ≠ c := fun e => h e.symm
    by_cases hb : b = 0#8 <;> simp [write, read, hb, this]
  | (k, v) :: rest => by
    have hac : a ≠ c := fun e => h e.symm
    unfold write
    split
    · split <;> simp [read, hac]
    · split
      · rename_i hk
        subst hk
        split <;> simp [read, hac]
      · simp only [read]
        rw [read_write_ne b h rest]

theorem read_write_self_from {a : Nat} (b : Byte) :
    ∀ {m : Memory} {lo : Nat}, wfFrom lo m = true → read (write m a b) a = b
  | [], _, _ => by
    by_cases hb : b = 0#8 <;> simp [write, read, hb]
  | (k, v) :: rest, lo, hm => by
    simp only [wfFrom, Bool.and_eq_true, decide_eq_true_eq] at hm
    unfold write
    split
    · split
      · rename_i hk hb
        have hka : k ≠ a := by omega
        simp only [read, hka, if_false, hb]
        exact read_below hm.2 (by omega)
      · simp [read]
    · split
      · split
        · rename_i hk hb
          rw [hb]
          exact read_below hm.2 (by omega)
        · simp [read]
      · rename_i h1 h2
        have hka : k ≠ a := fun e => h2 e.symm
        simp only [read, hka, if_false]
        exact read_write_self_from b hm.2

/-- A read after a write to the same address gives the value written. -/
theorem read_write_self {m : Memory} (a : Nat) (b : Byte) (h : wf m = true) : read (write m a b) a = b :=
  read_write_self_from b h

theorem wfFrom_write {a : Nat} (b : Byte) :
    ∀ {m : Memory} {lo : Nat}, lo ≤ a → wfFrom lo m = true → wfFrom lo (write m a b) = true
  | [], lo, hlo, _ => by
    unfold write
    split <;> simp_all [wfFrom]
  | (k, v) :: rest, lo, hlo, hm => by
    simp only [wfFrom, Bool.and_eq_true, decide_eq_true_eq] at hm
    unfold write
    split
    · rename_i hk
      split
      · simp [wfFrom, hm]
      · rename_i hb
        simp only [wfFrom, Bool.and_eq_true, decide_eq_true_eq]
        exact ⟨⟨hlo, hb⟩, ⟨by omega, hm.1.2⟩, hm.2⟩
    · split
      · rename_i hk
        subst hk
        split
        · exact wfFrom_mono (by omega) hm.2
        · rename_i hb
          simp only [wfFrom, Bool.and_eq_true, decide_eq_true_eq]
          exact ⟨⟨hlo, hb⟩, hm.2⟩
      · simp only [wfFrom, Bool.and_eq_true, decide_eq_true_eq]
        exact ⟨hm.1, wfFrom_write b (by omega) hm.2⟩

/-- A write keeps the canonical form. -/
theorem wf_write {m : Memory} (a : Nat) (b : Byte) (h : wf m = true) : wf (write m a b) = true :=
  wfFrom_write b (Nat.zero_le a) h

/-- A write lists no address but the old ones and its own. -/
theorem mem_write {a : Nat} {b : Byte} {c : Host.Cell} : ∀ {m : Memory}, c ∈ write m a b → c ∈ m ∨ c.1 = a
  | [], hc => by
    unfold write at hc
    split at hc
    · simp at hc
    · simp only [List.mem_singleton] at hc
      exact .inr (by rw [hc])
  | (k, v) :: rest, hc => by
    unfold write at hc
    split at hc
    · split at hc
      · exact .inl hc
      · rcases List.mem_cons.1 hc with rfl | hc
        · exact .inr rfl
        · exact .inl hc
    · split at hc
      · split at hc
        · exact .inl (List.mem_cons_of_mem _ hc)
        · rcases List.mem_cons.1 hc with rfl | hc
          · exact .inr rfl
          · exact .inl (List.mem_cons_of_mem _ hc)
      · rcases List.mem_cons.1 hc with rfl | hc
        · exact .inl (List.mem_cons_self ..)
        · rcases mem_write hc with h | h
          · exact .inl (List.mem_cons_of_mem _ h)
          · exact .inr h

theorem wfFrom_ofBytes : ∀ (bs : List Byte) (k : Nat), wfFrom k (ofBytes k bs) = true
  | [], _ => rfl
  | b :: bs, k => by
    unfold ofBytes
    split
    · exact wfFrom_mono (by omega) (wfFrom_ofBytes bs (k + 1))
    · rename_i hb
      simp only [wfFrom, Bool.and_eq_true, decide_eq_true_eq]
      exact ⟨⟨by omega, hb⟩, wfFrom_ofBytes bs (k + 1)⟩

/-- The memory of a payload is in canonical form. -/
theorem wf_ofBytes (bs : List Byte) : wf (ofBytes 0 bs) = true := wfFrom_ofBytes bs 0

theorem mem_ofBytes {c : Host.Cell} : ∀ {bs : List Byte} {k : Nat}, c ∈ ofBytes k bs → c.1 < k + bs.length
  | [], _, hc => by simp [ofBytes] at hc
  | b :: bs, k, hc => by
    unfold ofBytes at hc
    split at hc
    · have := mem_ofBytes hc
      simp only [List.length_cons]
      omega
    · rcases List.mem_cons.1 hc with rfl | hc
      · simp
      · have := mem_ofBytes hc
        simp only [List.length_cons]
        omega

/-- Byte `j` of a payload placed from `k` on reads back at `k + j`. -/
theorem read_ofBytes : ∀ (bs : List Byte) (k j : Nat), read (ofBytes k bs) (k + j) = bs.getD j 0#8
  | [], _, _ => by simp [ofBytes, read]
  | b :: bs, k, 0 => by
    unfold ofBytes
    split
    · rename_i hb
      rw [read_below (wfFrom_ofBytes bs (k + 1)) (by omega), hb]
      rfl
    · simp [read]
  | b :: bs, k, j + 1 => by
    have ih := read_ofBytes bs (k + 1) j
    have hk : k + 1 + j = k + (j + 1) := by omega
    rw [hk] at ih
    unfold ofBytes
    split
    · simpa using ih
    · have : k ≠ k + (j + 1) := by omega
      simp only [read, this, if_false]
      simpa using ih

/-- Two memories in canonical form that read alike everywhere are the same list. -/
theorem ext_of_read_from : ∀ {m m' : Memory} {lo lo' : Nat}, wfFrom lo m = true → wfFrom lo' m' = true →
    (∀ a, read m a = read m' a) → m = m'
  | [], [], _, _, _, _, _ => rfl
  | [], (k, v) :: rest, _, _, _, h', h => by
    simp only [wfFrom, Bool.and_eq_true, decide_eq_true_eq] at h'
    have := h k
    simp only [read, if_true] at this
    exact absurd this.symm h'.1.2
  | (k, v) :: rest, [], _, _, hm, _, h => by
    simp only [wfFrom, Bool.and_eq_true, decide_eq_true_eq] at hm
    have := h k
    simp only [read, if_true] at this
    exact absurd this hm.1.2
  | (k, v) :: rest, (k', v') :: rest', lo, lo', hm, hm', h => by
    simp only [wfFrom, Bool.and_eq_true, decide_eq_true_eq] at hm hm'
    have hk : k = k' := by
      rcases Nat.lt_trichotomy k k' with hlt | he | hgt
      · have h1 := h k
        have hne : k' ≠ k := by omega
        simp only [read, if_true, hne, if_false] at h1
        rw [read_below hm'.2 (by omega)] at h1
        exact absurd h1 hm.1.2
      · exact he
      · have h1 := h k'
        have hne : k ≠ k' := by omega
        simp only [read, if_true, hne, if_false] at h1
        rw [read_below hm.2 (by omega)] at h1
        exact absurd h1.symm hm'.1.2
    subst hk
    have hv : v = v' := by
      have h1 := h k
      simpa [read] using h1
    subst hv
    have hrest : rest = rest' := by
      refine ext_of_read_from hm.2 hm'.2 fun a => ?_
      by_cases ha : k = a
      · subst ha
        rw [read_below hm.2 (by omega), read_below hm'.2 (by omega)]
      · have h1 := h a
        simpa only [read, ha, if_false] using h1
    rw [hrest]

theorem ext_of_read {m m' : Memory} (hm : wf m = true) (hm' : wf m' = true) (h : ∀ a, read m a = read m' a) : m = m' :=
  ext_of_read_from hm hm' h

end Sys2Proof.Machine.Memory
end

