-- ==== Sys2Proof/Laws/Operands.lean ====
section
/-! SUPPORT. One law per shared operation: operand access agrees with the terms claims use, the decode checks pass exactly on
well-formed instructions, and what `runInstr` can answer. -/
namespace Sys2Proof.Machine

/-- The value of a literal is its number. -/
theorem setWidth_eq_ofNat (n : Payload) : n.setWidth 8 = BitVec.ofNat 8 n.toNat := by
  apply BitVec.eq_of_toNat_eq
  simp

theorem inRange_ref_iff {cfg : Config} {i : Payload} :
    inRange cfg (.ref i) ↔ cfg.indexExists i = true := by
  simp [inRange, Config.indexExists]

theorem exprOk_iff {cfg : Config} {o : Operand} : o.exprOk cfg = true ↔ inRange cfg o := by
  cases o with
  | lit n => simp [Operand.exprOk, inRange]
  | ref i => exact inRange_ref_iff.symm

theorem addrOk_iff {cfg : Config} {o : Operand} :
    o.addrOk cfg = true ↔ ∃ i, o = .ref i ∧ inRange cfg (.ref i) := by
  cases o with
  | lit n => simp [Operand.addrOk]
  | ref i => simp [Operand.addrOk, inRange_ref_iff]

/-- `Locate` answers exactly on the indices that name something (20_memory.md R43). -/
theorem locate_eq_none {cfg : Config} {i : Payload} : locate cfg i = none ↔ ¬ inRange cfg (.ref i) := by
  unfold locate inRange
  split
  · simp_all
  · split <;> simp_all

theorem locate_reg {cfg : Config} {i : Payload} (h : i.toNat < 8) : locate cfg i = some (.reg ⟨i.toNat, h⟩) := by
  simp [locate, h]

theorem locate_mem {cfg : Config} {i : Payload} (h : 8 ≤ i.toNat) (h' : i.toNat < cfg.memSize) :
    locate cfg i = some (.mem i.toNat) := by
  have : ¬ i.toNat < 8 := by omega
  simp [locate, this, h']

@[simp] theorem readOp_lit (s : State) (n : Payload) : s.readOp (.lit n) = .ok (s.valueOf (.lit n)) := by
  exact congrArg Except.ok (setWidth_eq_ofNat n)

/-- `ReadOp` answers the operand's value (20_memory.md R44). -/
theorem readOp_of_inRange {s : State} {o : Operand} (h : inRange s.cfg o) : s.readOp o = .ok (s.valueOf o) := by
  cases o with
  | lit n => exact readOp_lit s n
  | ref i =>
    by_cases hi : i.toNat < 8
    · simp [State.readOp, locate_reg hi, State.readLoc, State.reg, State.valueOf, hi]
    · have hm : i.toNat < s.cfg.memSize := h.resolve_left hi
      simp [State.readOp, locate_mem (by omega) hm, State.readLoc, State.valueOf, hi]

theorem readOp_of_not_inRange {s : State} {i : Payload} (h : ¬ inRange s.cfg (.ref i)) :
    s.readOp (.ref i) = .error (.fault (.addressOutOfRange i)) := by
  simp [State.readOp, locate_eq_none.2 h]

/-- `WriteOp` stores through a reference that names something (20_memory.md R45). -/
theorem writeOp_of_inRange {s : State} {i : Payload} (slot : OperandPos) (v : Byte) (h : inRange s.cfg (.ref i)) :
    s.writeOp slot (.ref i) v = .ok (s.stored i v) := by
  by_cases hi : i.toNat < 8
  · simp [State.writeOp, locate_reg hi, State.writeLoc, State.setReg, State.stored, hi]
  · have hm : i.toNat < s.cfg.memSize := h.resolve_left hi
    simp [State.writeOp, locate_mem (by omega) hm, State.writeLoc, State.setMem, State.stored, hi]

theorem writeOp_of_not_inRange {s : State} {i : Payload} (slot : OperandPos) (v : Byte) (h : ¬ inRange s.cfg (.ref i)) :
    s.writeOp slot (.ref i) v = .error (.fault (.addressOutOfRange i)) := by
  simp [State.writeOp, locate_eq_none.2 h]

@[simp] theorem writeOp_lit (s : State) (slot : OperandPos) (n : Payload) (v : Byte) :
    s.writeOp slot (.lit n) v = .error (.fault (.literalOperand slot)) := rfl

/-- A successful `WriteOp` stored through a reference in range. -/
theorem writeOp_eq_ok {s t : State} {slot : OperandPos} {o : Operand} {v : Byte} (h : s.writeOp slot o v = .ok t) :
    ∃ i, o = .ref i ∧ inRange s.cfg (.ref i) ∧ t = s.stored i v := by
  cases o with
  | lit n => simp at h
  | ref i =>
    by_cases hr : inRange s.cfg (.ref i)
    · rw [writeOp_of_inRange slot v hr] at h
      exact ⟨i, rfl, hr, (Except.ok.inj h).symm⟩
    · rw [writeOp_of_not_inRange slot v hr] at h
      cases h

/-- A successful `ReadOp` answered the value of an operand in range. -/
theorem readOp_eq_ok {s : State} {o : Operand} {v : Byte} (h : s.readOp o = .ok v) :
    inRange s.cfg o ∧ v = s.valueOf o := by
  by_cases hr : inRange s.cfg o
  · rw [readOp_of_inRange hr] at h
    exact ⟨hr, (Except.ok.inj h).symm⟩
  · cases o with
    | lit n => exact absurd trivial hr
    | ref i =>
      rw [readOp_of_not_inRange hr] at h
      cases h

theorem readOp_ne_waiting {s : State} {o : Operand} {p : PortChannel} : s.readOp o ≠ .error (.waiting p) := by
  by_cases hr : inRange s.cfg o
  · simp [readOp_of_inRange hr]
  · cases o with
    | lit n => exact absurd trivial hr
    | ref i => simp [readOp_of_not_inRange hr]

theorem writeOp_ne_waiting {s : State} {slot : OperandPos} {o : Operand} {v : Byte} {p : PortChannel} :
    s.writeOp slot o v ≠ .error (.waiting p) := by
  cases o with
  | lit n => simp
  | ref i =>
    by_cases hr : inRange s.cfg (.ref i)
    · simp [writeOp_of_inRange slot v hr]
    · simp [writeOp_of_not_inRange slot v hr]

/-! What a store leaves alone. -/

section stored
variable (s : State) (i : Payload) (v : Byte)

@[simp] theorem stored_cfg : (s.stored i v).cfg = s.cfg := by unfold State.stored; split <;> rfl
@[simp] theorem stored_pc : (s.stored i v).pc = s.pc := by unfold State.stored; split <;> rfl
@[simp] theorem stored_flags : (s.stored i v).flags = s.flags := by unfold State.stored; split <;> rfl
@[simp] theorem stored_status : (s.stored i v).status = s.status := by unfold State.stored; split <;> rfl
@[simp] theorem stored_inputs : (s.stored i v).inputs = s.inputs := by unfold State.stored; split <;> rfl
@[simp] theorem stored_ioLog : (s.stored i v).ioLog = s.ioLog := by unfold State.stored; split <;> rfl

end stored

@[simp] theorem valueOf_setPc (s : State) (t : Byte) (o : Operand) : (s.setPc t).valueOf o = s.valueOf o := by
  cases o <;> rfl

@[simp] theorem stored_setPc (s : State) (t : Byte) (i : Payload) (v : Byte) :
    (s.setPc t).stored i v = (s.stored i v).setPc t := by
  unfold State.stored
  split <;> rfl

theorem stored_reg (s : State) {i : Payload} (v : Byte) (h : i.toNat < 8) :
    s.stored i v = { s with regs := s.regs.set i.toNat v } := by
  simp [State.stored, h]

theorem stored_mem (s : State) {i : Payload} (v : Byte) (h : 8 ≤ i.toNat) :
    s.stored i v = { s with mem := s.mem.write i.toNat v } := by
  have : ¬ i.toNat < 8 := by omega
  simp [State.stored, this]

/-! The decode checks. -/

@[simp] theorem checkOperand_expr_lit (cfg : Config) (pos : OperandPos) (n : Payload) :
    checkOperand cfg pos .expr (.lit n) = none := rfl

@[simp] theorem checkOperand_addr_lit (cfg : Config) (pos : OperandPos) (n : Payload) :
    checkOperand cfg pos .addr (.lit n) = some (.literalOperand pos) := rfl

@[simp] theorem checkOperand_addrOfReference_lit (cfg : Config) (pos : OperandPos) (n : Payload) :
    checkOperand cfg pos .addrOfReference (.lit n) = some (.literalOperand pos) := rfl

theorem checkOperand_ref_ok {cfg : Config} (pos : OperandPos) (kind : OperandKind) {i : Payload}
    (h : inRange cfg (.ref i)) : checkOperand cfg pos kind (.ref i) = none := by
  cases hl : locate cfg i with
  | none => exact absurd h (locate_eq_none.1 hl)
  | some l => simp [checkOperand, hl]

theorem checkOperand_ref_bad {cfg : Config} (pos : OperandPos) (kind : OperandKind) {i : Payload}
    (h : ¬ inRange cfg (.ref i)) : checkOperand cfg pos kind (.ref i) = some (.addressOutOfRange i) := by
  simp [checkOperand, locate_eq_none.2 h]

theorem checkOperand_expr_eq_none {cfg : Config} {pos : OperandPos} {o : Operand} :
    checkOperand cfg pos .expr o = none ↔ inRange cfg o := by
  cases o with
  | lit n => simp [inRange]
  | ref i =>
    by_cases h : inRange cfg (.ref i)
    · simp [checkOperand_ref_ok pos .expr h, h]
    · simp [checkOperand_ref_bad pos .expr h, h]

theorem checkOperand_addr_eq_none {cfg : Config} {pos : OperandPos} {kind : OperandKind} {o : Operand}
    (hk : kindTakesLiteral kind = false) :
    checkOperand cfg pos kind o = none ↔ o.addrOk cfg = true := by
  cases o with
  | lit n => simp [checkOperand, hk, Operand.addrOk]
  | ref i =>
    by_cases h : inRange cfg (.ref i)
    · simp [checkOperand_ref_ok pos kind h, Operand.addrOk, inRange_ref_iff.1 h]
    · have : cfg.indexExists i = false := by
        simpa [inRange_ref_iff] using h
      simp [checkOperand_ref_bad pos kind h, Operand.addrOk, this]

theorem checkOperand_addr_ok {cfg : Config} {pos : OperandPos} {o : Operand} :
    checkOperand cfg pos .addr o = none ↔ o.addrOk cfg = true := checkOperand_addr_eq_none rfl

theorem checkOperand_addrOfReference_ok {cfg : Config} {pos : OperandPos} {o : Operand} :
    checkOperand cfg pos .addrOfReference o = none ↔ o.addrOk cfg = true := checkOperand_addr_eq_none rfl

@[simp] theorem checkOperands_nil (cfg : Config) : checkOperands cfg [] = none := rfl

theorem checkOperands_cons_eq_none {cfg : Config} {pos : OperandPos} {kind : OperandKind} {o : Operand}
    {rest : List (OperandPos × OperandKind × Operand)} :
    checkOperands cfg ((pos, kind, o) :: rest) = none ↔
      checkOperand cfg pos kind o = none ∧ checkOperands cfg rest = none := by
  cases h : checkOperand cfg pos kind o <;> simp [checkOperands, h]

/-- The decode checks pass exactly on well-formed instructions (40_dispatch.md R83, 30_encoding.md R69). -/
theorem checkOperands_eq_none_iff (cfg : Config) (i : Instr) :
    checkOperands cfg (instrOperands i) = none ↔ i.wellFormed cfg = true := by
  cases i <;>
    simp [instrOperands, checkOperands_cons_eq_none, Instr.wellFormed, checkOperand_expr_eq_none,
      checkOperand_addr_ok, checkOperand_addrOfReference_ok, exprOk_iff]

/-! What an instruction's frame can answer. -/

/-- On a well-formed instruction the handler runs on the state whose pc is past the instruction. -/
theorem runInstr_wellFormed {i : Instr} {body : State → Except Stop State} {s : State} (h : i.wellFormed s.cfg = true) :
    runInstr i body s = finish i s (body (s.setPc (pcAfter s.pc i))) := by
  simp [runInstr, (checkOperands_eq_none_iff s.cfg i).2 h]

/-- An ill-formed instruction takes the first decode fault. -/
theorem runInstr_ill {i : Instr} {body : State → Except Stop State} {s : State} {c : FaultCause}
    (h : checkOperands s.cfg (instrOperands i) = some c) :
    runInstr i body s = .next (s.takeFault s.pc (pcAfter s.pc i) c) := by
  simp [runInstr, h, finish]

/-- Everything `runInstr` can answer with a next state: a decode fault, the handler's state, or a fault the handler raised. -/
theorem runInstr_cases {i : Instr} {body : State → Except Stop State} {s t : State} (h : runInstr i body s = .next t) :
    (∃ c, checkOperands s.cfg (instrOperands i) = some c ∧ t = s.takeFault s.pc (pcAfter s.pc i) c) ∨
    (i.wellFormed s.cfg = true ∧ body (s.setPc (pcAfter s.pc i)) = .ok t) ∨
    (∃ c, i.wellFormed s.cfg = true ∧ body (s.setPc (pcAfter s.pc i)) = .error (.fault c) ∧
      t = s.takeFault s.pc (pcAfter s.pc i) c) := by
  cases hc : checkOperands s.cfg (instrOperands i) with
  | some c =>
    rw [runInstr_ill hc] at h
    exact .inl ⟨c, rfl, (Host.Outcome.next.inj h).symm⟩
  | none =>
    have hw := (checkOperands_eq_none_iff s.cfg i).1 hc
    rw [runInstr_wellFormed hw] at h
    cases hb : body (s.setPc (pcAfter s.pc i)) with
    | ok u =>
      rw [hb] at h
      exact .inr (.inl ⟨hw, by rw [Host.Outcome.next.inj h]⟩)
    | error e =>
      rw [hb] at h
      cases e with
      | fault c => exact .inr (.inr ⟨c, hw, rfl, (Host.Outcome.next.inj h).symm⟩)
      | waiting p => cases h

/-- `runInstr` takes no step exactly where the handler of a well-formed instruction waits. -/
theorem runInstr_eq_fault_iff {i : Instr} {body : State → Except Stop State} {s : State} {f : Fault} :
    runInstr i body s = .fault f ↔ i.wellFormed s.cfg = true ∧
      ∃ p, body (s.setPc (pcAfter s.pc i)) = .error (.waiting p) ∧ f = .awaitingInput p := by
  rw [← checkOperands_eq_none_iff]
  cases hc : checkOperands s.cfg (instrOperands i) with
  | some c => simp [runInstr, hc, finish]
  | none =>
    rcases hb : body (s.setPc (pcAfter s.pc i)) with (_ | p) | t <;>
      simp [runInstr, hc, hb, finish, eq_comm]

/-- `runInstr` never refuses. -/
theorem runInstr_ne_refused {i : Instr} {body : State → Except Stop State} {s : State} {r : Refusal} :
    runInstr i body s ≠ .refused r := by
  unfold runInstr
  split
  · simp [finish]
  · unfold finish
    split <;> simp

end Sys2Proof.Machine
end

