-- ==== Sys2Proof/Laws/Exec.lean ====
section
/-! SUPPORT. What each instruction's handler does, said once: `exec` is `runInstr` of the handler, and a handler that completes
has exactly its instruction's effect. -/
namespace Sys2Proof.Machine

/-- The handler of an instruction: what runs once its operands have passed their checks and the pc is past it. -/
def handler : Instr → State → Except Stop State
  | .suspend, s => .ok (s.halt .suspend)
  | .move src dst, s => do
    let v ← s.readOp src
    s.writeOp .two dst v
  | .add src dst, s => arithmetic aluAdd src dst s
  | .sub src dst, s => arithmetic aluSub src dst s
  | .jumpIfFalse flagMask addr, s => do
    let m ← s.readOp flagMask
    let t ← s.readOp addr
    return if flagsClear s.flags m then s.setPc t else s
  | .jumpRegister addr, s => do
    let t ← s.readOp addr
    return s.setPc t
  | .markPc dst, s => s.writeOp .one dst s.pc
  | .input channel dst, s => do
    let c ← s.readOp channel
    let p ← selectChannel s.cfg c
    let (v, t) ← s.ioIn p
    t.writeOp .two dst (BitVec.ofInt 8 v)
  | .output channel src, s => do
    let c ← s.readOp channel
    let p ← selectChannel s.cfg c
    let v ← s.readOp src
    return s.ioOut p v
  | .addressOf ref dst, s => do
    let i ← referenceIndex .one ref
    s.writeOp .two dst (encodeOperand (.ref i))
  | .addressOfIndirect src ref, s => do
    let v ← s.readOp src
    let p ← s.readOp ref
    s.writeOp .indirect (decodeOperand p) v

theorem exec_eq_runInstr (i : Instr) (s : State) : exec i s = runInstr i (handler i) s := by
  cases i <;> rfl

/-- What a completed handler did, in the terms claims use; `s` is the state whose pc is past the instruction. -/
def Effect : Instr → State → State → Prop
  | .suspend, s, t => t = s.halt .suspend
  | .move src dst, s, t => ∃ i, dst = .ref i ∧ t = s.stored i (s.valueOf src)
  | .add src dst, s, t => ∃ i, dst = .ref i ∧
      t = (s.stored i (aluAdd (s.valueOf dst) (s.valueOf src)).value).setFlags
        (flagsOf s.cfg (aluAdd (s.valueOf dst) (s.valueOf src)))
  | .sub src dst, s, t => ∃ i, dst = .ref i ∧
      t = (s.stored i (aluSub (s.valueOf dst) (s.valueOf src)).value).setFlags
        (flagsOf s.cfg (aluSub (s.valueOf dst) (s.valueOf src)))
  | .jumpIfFalse flagMask addr, s, t =>
      t = if flagsClear s.flags (s.valueOf flagMask) then s.setPc (s.valueOf addr) else s
  | .jumpRegister addr, s, t => t = s.setPc (s.valueOf addr)
  | .markPc dst, s, t => ∃ i, dst = .ref i ∧ t = s.stored i s.pc
  | .input channel dst, s, t => ∃ i p v rest, dst = .ref i ∧ portChannel s.cfg (s.valueOf channel) = some p ∧
      s.inputs = v :: rest ∧ t = ((s.setInputs rest).logIo (.consumed p v)).stored i (BitVec.ofInt 8 v)
  | .output channel src, s, t => ∃ p, portChannel s.cfg (s.valueOf channel) = some p ∧
      t = s.logIo (.emitted p (s.valueOf src))
  | .addressOf ref dst, s, t => ∃ i j, ref = .ref i ∧ dst = .ref j ∧ t = s.stored j (encodeOperand (.ref i))
  | .addressOfIndirect src ref, s, t => ∃ j, decodeOperand (s.valueOf ref) = .ref j ∧ inRange s.cfg (.ref j) ∧
      t = s.stored j (s.valueOf src)

section except
variable {ε α β : Type}

/-- A completed sequence completed both parts. -/
theorem bind_eq_ok {x : Except ε α} {f : α → Except ε β} {b : β} (h : (x >>= f) = .ok b) : ∃ a, x = .ok a ∧ f a = .ok b := by
  cases x with
  | error e => cases h
  | ok a => exact ⟨a, rfl, h⟩

/-- A sequence that stops stopped in one of its parts. -/
theorem bind_eq_error {x : Except ε α} {f : α → Except ε β} {e : ε} (h : (x >>= f) = .error e) :
    x = .error e ∨ ∃ a, x = .ok a ∧ f a = .error e := by
  cases x with
  | error e' => exact .inl (congrArg Except.error (Except.error.inj h))
  | ok a => exact .inr ⟨a, rfl, h⟩

@[simp] theorem ok_bind (a : α) (f : α → Except ε β) : (Except.ok a >>= f) = f a := rfl

@[simp] theorem error_bind (e : ε) (f : α → Except ε β) : ((Except.error e : Except ε α) >>= f) = .error e := rfl

end except

theorem selectChannel_eq_ok {cfg : Config} {c : Byte} {p : PortChannel} (h : selectChannel cfg c = .ok p) :
    portChannel cfg c = some p := by
  unfold selectChannel at h
  split at h
  · rename_i q hq
    rw [hq, Except.ok.inj h]
  · cases h

theorem ioIn_eq_ok {s t : State} {p : PortChannel} {v : Int} (h : s.ioIn p = .ok (v, t)) :
    ∃ rest, s.inputs = v :: rest ∧ t = (s.setInputs rest).logIo (.consumed p v) := by
  unfold State.ioIn at h
  split at h
  · cases h
  · rename_i w rest hw
    obtain ⟨rfl, rfl⟩ := Prod.mk.inj (Except.ok.inj h)
    exact ⟨rest, hw, rfl⟩

theorem referenceIndex_eq_ok {pos : OperandPos} {o : Operand} {i : Payload} (h : referenceIndex pos o = .ok i) :
    o = .ref i := by
  cases o with
  | lit n => cases h
  | ref j => rw [Except.ok.inj h]

theorem arithmetic_eq_ok {alu : Byte → Byte → AluResult} {src dst : Operand} {s t : State}
    (h : arithmetic alu src dst s = .ok t) :
    ∃ i, dst = .ref i ∧ t = (s.stored i (alu (s.valueOf dst) (s.valueOf src)).value).setFlags
      (flagsOf s.cfg (alu (s.valueOf dst) (s.valueOf src))) := by
  obtain ⟨delta, hd, h⟩ := bind_eq_ok h
  obtain ⟨old, ho, h⟩ := bind_eq_ok h
  obtain ⟨u, hu, h⟩ := bind_eq_ok h
  obtain ⟨i, hi, -, rfl⟩ := writeOp_eq_ok hu
  obtain ⟨-, rfl⟩ := readOp_eq_ok hd
  obtain ⟨-, rfl⟩ := readOp_eq_ok ho
  exact ⟨i, hi, (Except.ok.inj h).symm⟩

/-- A handler that completes has its instruction's effect. -/
theorem effect_of_handler {i : Instr} {s t : State} (h : handler i s = .ok t) : Effect i s t := by
  cases i with
  | suspend => exact (Except.ok.inj h).symm
  | move src dst =>
    obtain ⟨v, hv, h⟩ := bind_eq_ok h
    obtain ⟨i, hi, -, rfl⟩ := writeOp_eq_ok h
    obtain ⟨-, rfl⟩ := readOp_eq_ok hv
    exact ⟨i, hi, rfl⟩
  | add src dst => exact arithmetic_eq_ok h
  | sub src dst => exact arithmetic_eq_ok h
  | jumpIfFalse flagMask addr =>
    obtain ⟨m, hm, h⟩ := bind_eq_ok h
    obtain ⟨a, ha, h⟩ := bind_eq_ok h
    obtain ⟨-, rfl⟩ := readOp_eq_ok hm
    obtain ⟨-, rfl⟩ := readOp_eq_ok ha
    exact (Except.ok.inj h).symm
  | jumpRegister addr =>
    obtain ⟨a, ha, h⟩ := bind_eq_ok h
    obtain ⟨-, rfl⟩ := readOp_eq_ok ha
    exact (Except.ok.inj h).symm
  | markPc dst =>
    obtain ⟨i, hi, -, rfl⟩ := writeOp_eq_ok h
    exact ⟨i, hi, rfl⟩
  | input channel dst =>
    obtain ⟨c, hc, h⟩ := bind_eq_ok h
    obtain ⟨p, hp, h⟩ := bind_eq_ok h
    obtain ⟨⟨v, u⟩, hv, h⟩ := bind_eq_ok h
    obtain ⟨-, rfl⟩ := readOp_eq_ok hc
    obtain ⟨rest, hr, rfl⟩ := ioIn_eq_ok hv
    obtain ⟨i, hi, -, rfl⟩ := writeOp_eq_ok h
    exact ⟨i, p, v, rest, hi, selectChannel_eq_ok hp, hr, rfl⟩
  | output channel src =>
    obtain ⟨c, hc, h⟩ := bind_eq_ok h
    obtain ⟨p, hp, h⟩ := bind_eq_ok h
    obtain ⟨v, hv, h⟩ := bind_eq_ok h
    obtain ⟨-, rfl⟩ := readOp_eq_ok hc
    obtain ⟨-, rfl⟩ := readOp_eq_ok hv
    exact ⟨p, selectChannel_eq_ok hp, (Except.ok.inj h).symm⟩
  | addressOf ref dst =>
    obtain ⟨i, hi, h⟩ := bind_eq_ok h
    obtain ⟨j, hj, -, rfl⟩ := writeOp_eq_ok h
    exact ⟨i, j, referenceIndex_eq_ok hi, hj, rfl⟩
  | addressOfIndirect src ref =>
    obtain ⟨v, hv, h⟩ := bind_eq_ok h
    obtain ⟨p, hp, h⟩ := bind_eq_ok h
    obtain ⟨j, hj, hr, rfl⟩ := writeOp_eq_ok h
    obtain ⟨-, rfl⟩ := readOp_eq_ok hv
    obtain ⟨-, rfl⟩ := readOp_eq_ok hp
    exact ⟨j, hj, hr, rfl⟩

/-- Everything an instruction can do when it answers a next state: take a fault or have its effect. -/
theorem exec_cases {i : Instr} {s t : State} (h : exec i s = .next t) :
    (∃ c, t = s.takeFault s.pc (pcAfter s.pc i) c ∧
      (checkOperands s.cfg (instrOperands i) = some c ∨
        (i.wellFormed s.cfg = true ∧ handler i (s.setPc (pcAfter s.pc i)) = .error (.fault c)))) ∨
    (i.wellFormed s.cfg = true ∧ Effect i (s.setPc (pcAfter s.pc i)) t) := by
  rw [exec_eq_runInstr] at h
  rcases runInstr_cases h with ⟨c, hc, ht⟩ | ⟨hw, hb⟩ | ⟨c, hw, hb, ht⟩
  · exact .inl ⟨c, ht, .inl hc⟩
  · exact .inr ⟨hw, effect_of_handler hb⟩
  · exact .inl ⟨c, ht, .inr ⟨hw, hb⟩⟩

/-- A handler that waits is INPUT's, on a channel of the port, with no value supplied (43_io.md R141, R143). -/
theorem handler_waits {i : Instr} {s : State} {p : PortChannel} (h : handler i s = .error (.waiting p)) :
    ∃ ch dst, i = .input ch dst ∧ portChannel s.cfg (s.valueOf ch) = some p ∧ s.inputs = [] := by
  have hread {u : State} {o : Operand} {f : Byte → Except Stop State} (h : (u.readOp o >>= f) = .error (.waiting p)) :
      f (u.valueOf o) = .error (.waiting p) := by
    obtain h | ⟨v, hv, h⟩ := bind_eq_error h
    · exact absurd h readOp_ne_waiting
    · rwa [← (readOp_eq_ok hv).2]
  have harith {alu : Byte → Byte → AluResult} {src dst : Operand} : arithmetic alu src dst s ≠ .error (.waiting p) := by
    intro h
    obtain h | ⟨t, -, h⟩ := bind_eq_error (hread (hread h))
    · exact writeOp_ne_waiting h
    · cases h
  cases i with
  | suspend => cases h
  | move src dst => exact absurd (hread h) writeOp_ne_waiting
  | add src dst => exact absurd h harith
  | sub src dst => exact absurd h harith
  | jumpIfFalse flagMask addr => cases hread (hread h)
  | jumpRegister addr => cases hread h
  | markPc dst => exact absurd h writeOp_ne_waiting
  | input channel dst =>
    obtain h' | ⟨q, hq, h⟩ := bind_eq_error (hread h)
    · unfold selectChannel at h'
      split at h' <;> cases h'
    obtain h' | ⟨⟨v, t⟩, -, h⟩ := bind_eq_error h
    · unfold State.ioIn at h'
      split at h'
      · rename_i hi
        cases h'
        exact ⟨channel, dst, rfl, selectChannel_eq_ok hq, hi⟩
      · cases h'
    · exact absurd h writeOp_ne_waiting
  | output channel src =>
    obtain h' | ⟨q, -, h⟩ := bind_eq_error (hread h)
    · unfold selectChannel at h'
      split at h' <;> cases h'
    · cases hread h
  | addressOf ref dst =>
    obtain h' | ⟨j, -, h⟩ := bind_eq_error h
    · cases ref <;> cases h'
    · exact absurd h writeOp_ne_waiting
  | addressOfIndirect src ref => exact absurd (hread (hread h)) writeOp_ne_waiting

/-- The one stop of an instruction: a well-formed INPUT on a channel of the port, with no value supplied. -/
theorem exec_eq_fault {i : Instr} {s : State} {f : Fault} (h : exec i s = .fault f) :
    ∃ ch dst p, i = .input ch dst ∧ i.wellFormed s.cfg = true ∧ portChannel s.cfg (s.valueOf ch) = some p ∧
      s.inputs = [] ∧ f = .awaitingInput p := by
  rw [exec_eq_runInstr] at h
  obtain ⟨hw, p, hb, hf⟩ := runInstr_eq_fault_iff.1 h
  obtain ⟨ch, dst, hi, hp, hn⟩ := handler_waits hb
  exact ⟨ch, dst, p, hi, hw, by simpa using hp, hn, hf⟩

theorem exec_ne_refused {i : Instr} {s : State} {r : Refusal} : exec i s ≠ .refused r := by
  rw [exec_eq_runInstr]
  exact runInstr_ne_refused

end Sys2Proof.Machine
end

