-- ==== Sys2Proof/Laws/Fetch.lean ====
section
/-! SUPPORT. What the fetch reads and everything a step can do. -/
namespace Sys2Proof.Machine

theorem length_bytesFrom_le (s : State) : ∀ (n a : Nat), (s.bytesFrom a n).length ≤ n
  | 0, _ => by simp [State.bytesFrom]
  | n + 1, a => by
    unfold State.bytesFrom
    split
    · have := length_bytesFrom_le s n (a + 1)
      simp only [List.length_cons]
      omega
    · simp

/-- The fetch reads bytes of the pool only (40_dispatch.md R81). -/
theorem bytesFrom_inPool (s : State) : ∀ (n a : Nat), s.bytesFrom a n ≠ [] → a + (s.bytesFrom a n).length ≤ s.cfg.memSize
  | 0, _, h => by simp [State.bytesFrom] at h
  | n + 1, a, h => by
    unfold State.bytesFrom at h ⊢
    split
    · rename_i ha
      by_cases hb : s.bytesFrom (a + 1) n = []
      · simp only [hb, List.length_cons, List.length_nil]
        omega
      · have := bytesFrom_inPool s n (a + 1) hb
        simp only [List.length_cons]
        omega
    · rename_i ha
      simp [ha] at h

/-- Byte `k` the fetch reads is the memory byte `k` places on. -/
theorem getElem?_bytesFrom (s : State) : ∀ (n a k : Nat), k < n → a + k < s.cfg.memSize →
    (s.bytesFrom a n)[k]? = some (s.mem.read (a + k))
  | 0, _, _, h, _ => by omega
  | n + 1, a, 0, _, h => by
    have : a < s.cfg.memSize := by omega
    simp [State.bytesFrom, this]
  | n + 1, a, k + 1, hk, h => by
    have ha : a < s.cfg.memSize := by omega
    have := getElem?_bytesFrom s n (a + 1) k (by omega) (by omega)
    simp only [State.bytesFrom, ha, if_true, List.getElem?_cons_succ, this]
    congr 2
    omega

theorem bytesFrom_eq_nil {s : State} {a n : Nat} (h : s.cfg.memSize ≤ a) : s.bytesFrom a n = [] := by
  cases n with
  | zero => rfl
  | succ n =>
    have : ¬ a < s.cfg.memSize := by omega
    simp [State.bytesFrom, this]

/-- A step is taken only from RUNNING (40_dispatch.md R80). -/
theorem running_of_step {s t : State} (h : step s = .next t) : s.status = .running := by
  unfold step cycle at h
  split at h
  · assumption
  · cases h
  · cases h

theorem step_running {s : State} (h : s.status = .running) : step s = runStep s := by
  simp [step, cycle, h]

/-- Everything a step can do when it answers a next state (40_dispatch.md R87). -/
theorem step_cases {s t : State} (h : step s = .next t) :
    (∃ i rest, s.instructionAt = .ok (i, rest) ∧ exec i s = .next t) ∨
    (s.instructionAt = .error .noOpcode ∧ t = s.takeFault s.pc s.pc (.fetchOutOfRange s.pc)) ∨
    (∃ b, s.instructionAt = .error (.unassigned b) ∧ t = (s.setPc (s.pc + 1#8)).halt (.unknownOpcode b)) ∨
    (∃ k, s.instructionAt = .error (.missingOperand k) ∧
      t = s.takeFault s.pc (s.pc + BitVec.ofNat 8 k) (.fetchOutOfRange (s.pc + BitVec.ofNat 8 k))) := by
  rw [step_running (running_of_step h)] at h
  unfold runStep at h
  split at h
  · rename_i i rest hi
    exact .inl ⟨i, rest, hi, h⟩
  · rename_i hi
    exact .inr (.inl ⟨hi, (Host.Outcome.next.inj h).symm⟩)
  · rename_i b hi
    exact .inr (.inr (.inl ⟨b, hi, (Host.Outcome.next.inj h).symm⟩))
  · rename_i k hi
    exact .inr (.inr (.inr ⟨k, hi, (Host.Outcome.next.inj h).symm⟩))

/-- Everything that leaves no step enabled: a terminal state, or an INPUT that waits (40_dispatch.md R80, R89). -/
theorem step_eq_fault {s : State} {f : Fault} (h : step s = .fault f) :
    (∃ c, s.status = .halted c ∧ f = .coreHalted c) ∨ (∃ r, s.status = .faulted r ∧ f = .coreFaulted r) ∨
    (s.status = .running ∧ ∃ i rest, s.instructionAt = .ok (i, rest) ∧ exec i s = .fault f) := by
  cases hs : s.status with
  | halted c =>
    simp only [step, cycle, hs] at h
    cases h
    exact .inl ⟨c, rfl, rfl⟩
  | faulted r =>
    simp only [step, cycle, hs] at h
    cases h
    exact .inr (.inl ⟨r, rfl, rfl⟩)
  | running =>
    rw [step_running hs] at h
    unfold runStep at h
    split at h
    · rename_i i rest hi
      exact .inr (.inr ⟨rfl, i, rest, hi, h⟩)
    all_goals cases h

theorem step_ne_refused {s : State} {r : Refusal} : step s ≠ .refused r := by
  unfold step cycle
  split
  · unfold runStep
    split
    · exact exec_ne_refused
    all_goals simp
  all_goals simp

end Sys2Proof.Machine
end

