-- ==== Sys2Proof/Laws/PerInstr.lean ====
section
/-! SUPPORT. The family EncodedForm: an instruction's encoding has its length, starts with its mnemonic's byte, and is its
operand bytes after that (30_encoding.md R60, R71). -/
namespace Sys2Proof.Laws.EncodedForm

def Statement (i : Instr) : Prop :=
  ∀ cfg : Config, (encode cfg i).length = i.length ∧ (encode cfg i).head? = some (cfg.opcodes.value i.mnemonic) ∧
    ∀ rest, decodeOperands i.mnemonic (encodeOperands i ++ rest) = .ok (i, rest)

theorem suspend : Statement .suspend := fun _ => ⟨rfl, rfl, fun _ => rfl⟩

theorem move (src dst : Operand) : Statement (.move src dst) := fun _ =>
  ⟨rfl, rfl, fun _ => by simp [Instr.mnemonic, encodeOperands, decodeOperands, decodeTwo]⟩

theorem add (src dst : Operand) : Statement (.add src dst) := fun _ =>
  ⟨rfl, rfl, fun _ => by simp [Instr.mnemonic, encodeOperands, decodeOperands, decodeTwo]⟩

theorem sub (src dst : Operand) : Statement (.sub src dst) := fun _ =>
  ⟨rfl, rfl, fun _ => by simp [Instr.mnemonic, encodeOperands, decodeOperands, decodeTwo]⟩

theorem jumpIfFalse (flagMask addr : Operand) : Statement (.jumpIfFalse flagMask addr) := fun _ =>
  ⟨rfl, rfl, fun _ => by simp [Instr.mnemonic, encodeOperands, decodeOperands, decodeTwo]⟩

theorem jumpRegister (addr : Operand) : Statement (.jumpRegister addr) := fun _ =>
  ⟨rfl, rfl, fun _ => by simp [Instr.mnemonic, encodeOperands, decodeOperands, decodeOne]⟩

theorem markPc (dst : Operand) : Statement (.markPc dst) := fun _ =>
  ⟨rfl, rfl, fun _ => by simp [Instr.mnemonic, encodeOperands, decodeOperands, decodeOne]⟩

theorem input (channel dst : Operand) : Statement (.input channel dst) := fun _ =>
  ⟨rfl, rfl, fun _ => by simp [Instr.mnemonic, encodeOperands, decodeOperands, decodeTwo]⟩

theorem output (channel src : Operand) : Statement (.output channel src) := fun _ =>
  ⟨rfl, rfl, fun _ => by simp [Instr.mnemonic, encodeOperands, decodeOperands, decodeTwo]⟩

theorem addressOf (ref dst : Operand) : Statement (.addressOf ref dst) := fun _ =>
  ⟨rfl, rfl, fun _ => by simp [Instr.mnemonic, encodeOperands, decodeOperands, decodeTwo]⟩

theorem addressOfIndirect (src ref : Operand) : Statement (.addressOfIndirect src ref) := fun _ =>
  ⟨rfl, rfl, fun _ => by simp [Instr.mnemonic, encodeOperands, decodeOperands, decodeTwo]⟩

end Sys2Proof.Laws.EncodedForm
end

