-- ==== Sys2Proof/Laws/Run.lean ====
section
/-! SUPPORT. Runs in an environment: what one move does, and induction along a run. -/
namespace Sys2Proof.Machine

theorem tick_of_next {s t : State} (h : step s = .next t) : s.tick = t := by
  simp [State.tick, h]

theorem tick_of_fault {s : State} {f : Fault} (h : step s = .fault f) : s.tick = s := by
  simp [State.tick, h]

theorem awaitedChannel_eq_some_iff {s : State} {p : PortChannel} :
    s.awaitedChannel = some p ↔ step s = .fault (.awaitingInput p) := by
  unfold State.awaitedChannel
  split <;> simp_all

theorem awaitedChannel_eq_none_of_next {s t : State} (h : step s = .next t) : s.awaitedChannel = none := by
  simp [State.awaitedChannel, h]

section answered
variable {env : Environment} {s : State}

theorem answered_of_none (h : s.awaitedChannel = none) : s.answered env = s := by
  simp [State.answered, h]

theorem answered_of_supplied {p : PortChannel} {v : Int} (h : s.awaitedChannel = some p) (he : env s.ioLog p = some v) :
    s.answered env = s.supply v := by
  simp [State.answered, h, he]

theorem answered_of_unanswered {p : PortChannel} (h : s.awaitedChannel = some p) (he : env s.ioLog p = none) :
    s.answered env = s := by
  simp [State.answered, h, he]

/-- Everything the environment can do before a step. -/
theorem answered_cases (env : Environment) (s : State) :
    s.answered env = s ∨ ∃ p v, s.awaitedChannel = some p ∧ env s.ioLog p = some v ∧ s.answered env = s.supply v := by
  cases h : s.awaitedChannel with
  | none => exact .inl (answered_of_none h)
  | some p =>
    cases he : env s.ioLog p with
    | none => exact .inl (answered_of_unanswered h he)
    | some v => exact .inr ⟨p, v, rfl, he, answered_of_supplied h he⟩

end answered

@[simp] theorem after_zero (env : Environment) (s : State) : s.after env 0 = s := rfl

theorem after_succ (env : Environment) (s : State) (n : Nat) :
    s.after env (n + 1) = ((s.after env n).answered env).tick := rfl

theorem after_add (env : Environment) (s : State) (m n : Nat) : s.after env (m + n) = (s.after env m).after env n := by
  induction n with
  | zero => rfl
  | succ n ih => rw [← Nat.add_assoc, after_succ, ih, after_succ]

/-- What every move keeps holds along the whole run. -/
theorem after_induction {env : Environment} {P : State → Prop} (move : ∀ s, P s → P (s.answered env).tick) {s : State}
    (h : P s) (n : Nat) : P (s.after env n) := by
  induction n with
  | zero => exact h
  | succ n ih => exact move _ ih

end Sys2Proof.Machine
end

