-- ==== Sys2Proof/Machine/Asm.lean ====
section
/-! DEFINITION. The assembler notation of 00_scope.md R13 and 30_encoding.md R72, on lines already split into their parts:
how an image builder turns a program into bytes. The core never runs any of it. -/
namespace Sys2Proof.Machine

/-- An operand as written (R13, R72): `#n`, `rN`, `m[i]`, `#label`. -/
inductive AsmOperand where
  | literal (n : Nat)
  | register (n : Nat)
  | cell (i : Nat)
  | labelLiteral (name : String)
deriving DecidableEq, Repr

/-- A line of a program (R72). -/
inductive AsmLine where
  | label (name : String)
  | org (a : Nat)
  | byte (v : Byte)
  | instruction (m : Mnemonic) (operands : List AsmOperand)
deriving DecidableEq, Repr

/-- The memory index after a line that starts at index `here` (R72). -/
def AsmLine.next (line : AsmLine) (here : Nat) : Nat :=
  match line with
  | .label _ => here
  | .org a => a
  | .byte _ => here + 1
  | .instruction m _ => here + m.arity + 1

/-- The index each label is bound to (R72). A label bound twice keeps its first index (DESIGN CHOICE, log entry 15). -/
def asmLabels : Nat → List AsmLine → List (String × Nat)
  | _, [] => []
  | here, .label name :: rest => (name, here) :: asmLabels here rest
  | here, line :: rest => asmLabels (line.next here) rest

/-- The byte of an operand as written (R13, R72): a literal or a label's index above 127 is refused, a register is 0..7, a
memory reference is written so only from 8 on. A label that no line binds is refused, as one above 127 is: R72 does not say what
becomes of it (DESIGN CHOICE, log entry 15). -/
def asmOperand (labels : List (String × Nat)) : AsmOperand → Option Byte
  | .literal n => encodeLiteral n
  | .register n => if n < 8 then encodeReference n else none
  | .cell i => if 8 ≤ i then encodeReference i else none
  | .labelLiteral name =>
    match labels.lookup name with
    | some i => encodeLiteral i
    | none => none

/-- The bytes of a list of operands, in order. -/
def asmOperands (labels : List (String × Nat)) : List AsmOperand → Option (List Byte)
  | [] => some []
  | o :: rest =>
    match asmOperand labels o, asmOperands labels rest with
    | some b, some bs => some (b :: bs)
    | _, _ => none

/-- The bytes of one line (R72, R73): a mnemonic takes exactly its number of operands. -/
def asmLine (cfg : Config) (labels : List (String × Nat)) : AsmLine → Option (List Byte)
  | .label _ => some []
  | .org _ => some []
  | .byte v => some [v]
  | .instruction m operands =>
    if operands.length = m.arity then
      match asmOperands labels operands with
      | some bs => some (cfg.opcodes.value m :: bs)
      | none => none
    else none

/-- Bytes with the addresses they stand at, from `a` on. -/
def atAddresses : Nat → List Byte → List Host.Cell
  | _, [] => []
  | a, b :: bs => (a, b) :: atAddresses (a + 1) bs

/-- The bytes of the lines from index `here` on, each with its address. -/
def asmFrom (cfg : Config) (labels : List (String × Nat)) : Nat → List AsmLine → Option (List Host.Cell)
  | _, [] => some []
  | here, line :: rest =>
    match asmLine cfg labels line, asmFrom cfg labels (line.next here) rest with
    | some bs, some cells => some (atAddresses here bs ++ cells)
    | _, _ => none

/-- A program's bytes with their addresses in line order, from index 0 on. One refused line refuses the whole program (`none`);
bytes beyond the pool and bytes at one address twice are not refused (DESIGN CHOICE, log entry 15). -/
def assemble (cfg : Config) (lines : List AsmLine) : Option (List Host.Cell) :=
  asmFrom cfg (asmLabels 0 lines) 0 lines

end Sys2Proof.Machine
end

