-- ==== Sys2Proof/Tests/Slice0.lean ====
section
/-! SUPPORT. Tests with expected results from spec/95_test_vectors.md and the rules' own examples, the smoke test of
WellFormed, and, for each obligation with hypotheses, a concrete state and operands that meet them all (witness_…). -/
namespace Sys2Proof.Tests

open Sys2Proof Sys2Proof.Machine

/-- The reset state with these bytes from address `a` on and `pc` there. -/
def progAt (a : Nat) (bs : List Byte) : State := (State.reset.setPc (BitVec.ofNat 8 a)).placeBytes a bs

/-- A state with one register set. -/
def withReg (s : State) (r : Fin 8) (v : Byte) : State := s.setReg r v

/-- The same state with a pool of `n` bytes. -/
def poolOf (n : Nat) (s : State) : State := { s with cfg := { s.cfg with memSize := n } }

/-- What a step leaves, by a view of the next state; `none` where there is no next state. -/
def stepView {α : Type} (view : State → α) (s : State) : Option α :=
  match step s with
  | .next t => some (view t)
  | .fault _ => none
  | .refused _ => none

/-- Why no step is taken; `none` where one is. -/
def stepStop (s : State) : Option Fault :=
  match step s with
  | .next _ => none
  | .fault f => some f
  | .refused _ => none

/-! WellFormed smoke: an ill-formed term for each check, beside a well-formed one (30_encoding.md R66, 20_memory.md R43). -/

def cfg64 : Config := { Config.standard with memSize := 64 }

theorem test_wf_suspend : Instr.suspend.wellFormed cfg64 = true := by decide

theorem test_wf_move : (Instr.move (.ref 64#7) (.ref 0#7)).wellFormed cfg64 = false ∧
    (Instr.move (.lit 0#7) (.lit 0#7)).wellFormed cfg64 = false ∧
    (Instr.move (.lit 0#7) (.ref 64#7)).wellFormed cfg64 = false ∧
    (Instr.move (.lit 127#7) (.ref 63#7)).wellFormed cfg64 = true := by decide

theorem test_wf_add : (Instr.add (.ref 64#7) (.ref 0#7)).wellFormed cfg64 = false ∧
    (Instr.add (.ref 0#7) (.lit 0#7)).wellFormed cfg64 = false ∧
    (Instr.add (.ref 63#7) (.ref 7#7)).wellFormed cfg64 = true := by decide

theorem test_wf_sub : (Instr.sub (.ref 127#7) (.ref 0#7)).wellFormed cfg64 = false ∧
    (Instr.sub (.ref 0#7) (.lit 0#7)).wellFormed cfg64 = false ∧
    (Instr.sub (.ref 8#7) (.ref 8#7)).wellFormed cfg64 = true := by decide

theorem test_wf_jumpIfFalse : (Instr.jumpIfFalse (.ref 64#7) (.ref 0#7)).wellFormed cfg64 = false ∧
    (Instr.jumpIfFalse (.lit 1#7) (.lit 2#7)).wellFormed cfg64 = false ∧
    (Instr.jumpIfFalse (.lit 1#7) (.ref 2#7)).wellFormed cfg64 = true := by decide

theorem test_wf_jumpRegister : (Instr.jumpRegister (.lit 3#7)).wellFormed cfg64 = false ∧
    (Instr.jumpRegister (.ref 64#7)).wellFormed cfg64 = false ∧
    (Instr.jumpRegister (.ref 63#7)).wellFormed cfg64 = true := by decide

theorem test_wf_markPc : (Instr.markPc (.lit 0#7)).wellFormed cfg64 = false ∧
    (Instr.markPc (.ref 64#7)).wellFormed cfg64 = false ∧ (Instr.markPc (.ref 6#7)).wellFormed cfg64 = true := by decide

theorem test_wf_input : (Instr.input (.ref 64#7) (.ref 0#7)).wellFormed cfg64 = false ∧
    (Instr.input (.lit 1#7) (.lit 0#7)).wellFormed cfg64 = false ∧
    (Instr.input (.ref 3#7) (.ref 0#7)).wellFormed cfg64 = true := by decide

theorem test_wf_output : (Instr.output (.ref 64#7) (.ref 0#7)).wellFormed cfg64 = false ∧
    (Instr.output (.lit 1#7) (.lit 5#7)).wellFormed cfg64 = false ∧
    (Instr.output (.lit 1#7) (.ref 4#7)).wellFormed cfg64 = true := by decide

theorem test_wf_addressOf : (Instr.addressOf (.lit 3#7) (.ref 3#7)).wellFormed cfg64 = false ∧
    (Instr.addressOf (.ref 100#7) (.ref 3#7)).wellFormed cfg64 = false ∧
    (Instr.addressOf (.ref 3#7) (.lit 3#7)).wellFormed cfg64 = false ∧
    (Instr.addressOf (.ref 3#7) (.ref 100#7)).wellFormed cfg64 = false ∧
    (Instr.addressOf (.ref 3#7) (.ref 3#7)).wellFormed cfg64 = true := by decide

theorem test_wf_addressOfIndirect : (Instr.addressOfIndirect (.ref 64#7) (.ref 3#7)).wellFormed cfg64 = false ∧
    (Instr.addressOfIndirect (.lit 42#7) (.lit 3#7)).wellFormed cfg64 = false ∧
    (Instr.addressOfIndirect (.lit 42#7) (.ref 3#7)).wellFormed cfg64 = true := by decide

theorem test_config_valid : Config.standard.valid = true ∧ ({ Config.standard with memSize := 0 } : Config).valid = false ∧
    ({ Config.standard with memSize := 129 } : Config).valid = false ∧
    ({ Config.standard with opcodes := { OpcodeMap.standard with add := 0x01#8 } } : Config).valid = false ∧
    ({ Config.standard with flagCarryBit := 0 } : Config).valid = false ∧
    ({ Config.standard with chanNumeric := 0#8 } : Config).valid = false := by decide

/-! Decoding: a word of every row, written bit by bit from the opcode map (30_encoding.md R60 to R67). -/

theorem test_decode_suspend : decode Config.standard [0b00000000#8] = .ok (.suspend, []) := by decide
/-- `MOVE #5, r1` is `01 0B 02` (41_move_arith.md R103). -/
theorem test_decode_move :
    decode Config.standard [0b00000001#8, 0b00001011#8, 0b00000010#8] = .ok (.move (.lit 5#7) (.ref 1#7), []) := by decide
/-- `ADD literal(5), reg(0)` is `02 0B 00` (R104). -/
theorem test_decode_add :
    decode Config.standard [0b00000010#8, 0b00001011#8, 0b00000000#8] = .ok (.add (.lit 5#7) (.ref 0#7), []) := by decide
theorem test_decode_sub :
    decode Config.standard [0b00000011#8, 0b00001011#8, 0b00000000#8] = .ok (.sub (.lit 5#7) (.ref 0#7), []) := by decide
/-- `JUMP-IF-FALSE #1, r2` is `04 03 04` (42_control.md R121). -/
theorem test_decode_jumpIfFalse :
    decode Config.standard [0b00000100#8, 0b00000011#8, 0b00000100#8] = .ok (.jumpIfFalse (.lit 1#7) (.ref 2#7), []) := by
  decide
theorem test_decode_jumpRegister :
    decode Config.standard [0b00000101#8, 0b00001010#8, 0xFF#8] = .ok (.jumpRegister (.ref 5#7), [0xFF#8]) := by decide
theorem test_decode_markPc : decode Config.standard [0b00000110#8, 0b00001100#8] = .ok (.markPc (.ref 6#7), []) := by decide
/-- `INPUT #0, r0` is `07 01 00` (43_io.md R143). -/
theorem test_decode_input :
    decode Config.standard [0b00000111#8, 0b00000001#8, 0b00000000#8] = .ok (.input (.lit 0#7) (.ref 0#7), []) := by decide
theorem test_decode_output :
    decode Config.standard [0b00001000#8, 0b00000011#8, 0b00001000#8] = .ok (.output (.lit 1#7) (.ref 4#7), []) := by decide
/-- `ADDRESS-OF m[100], r3` is `09 C8 06` (44_address.md R160). -/
theorem test_decode_addressOf :
    decode Config.standard [0b00001001#8, 0b11001000#8, 0b00000110#8] = .ok (.addressOf (.ref 100#7) (.ref 3#7), []) := by
  decide
theorem test_decode_addressOfIndirect :
    decode Config.standard [0b00001010#8, 0b01010101#8, 0b00000110#8] =
      .ok (.addressOfIndirect (.lit 42#7) (.ref 3#7), []) := by decide
/-- The codec table of 95_test_vectors.md 2.1. -/
theorem test_decode_operand_bytes : decodeOperand 0x0E#8 = .ref 7#7 ∧ decodeOperand 0x10#8 = .ref 8#7 ∧
    decodeOperand 0xFE#8 = .ref 127#7 ∧ decodeOperand 0xFF#8 = .lit 127#7 := by decide
theorem test_decode_rejects : decode Config.standard [] = .error .noOpcode ∧
    decode Config.standard [0x0B#8] = .error (.unassigned 0x0B#8) ∧
    decode Config.standard [0x01#8] = .error (.missingOperand 1) ∧
    decode Config.standard [0x01#8, 0x03#8] = .error (.missingOperand 2) := by decide
theorem test_encode_move : encode Config.standard (.move (.lit 5#7) (.ref 1#7)) = [0x01#8, 0x0B#8, 0x02#8] := by decide
theorem test_table_word : decodeTableWord 24 0x060A02 = some (.add (.ref 5#7) (.ref 3#7)) ∧
    decodeTableWord 8 0xFFFF01 = some (.move (.ref 0#7) (.ref 0#7)) ∧ decodeTableWord 8 0x0B = none := by decide

/-! One step of each instruction (95_test_vectors.md 1 and 2). -/

/-- 2.9: SUSPEND. -/
theorem test_suspend : stepView (fun t => (t.pc, t.status)) (progAt 127 [0x00#8]) = some (128#8, .halted .suspend) := by decide
/-- W7. -/
theorem test_add_example : stepView (fun t => (t.regs[0], t.flags, t.pc)) (withReg (progAt 0 [0x02#8, 0x0B#8, 0x00#8]) 0 3#8) =
    some (8#8, 0#8, 3#8) := by decide
/-- 2.3: 255 + 1 wraps, sets ZERO and CARRY. -/
theorem test_add_wraps : stepView (fun t => (t.regs[0], t.flags)) (withReg (progAt 0 [0x02#8, 0x03#8, 0x00#8]) 0 255#8) =
    some (0#8, 0x03#8) := by decide
/-- W8. -/
theorem test_sub_borrows : stepView (fun t => (t.regs[0], t.flags, t.pc)) (withReg (progAt 0 [0x03#8, 0x0B#8, 0x00#8]) 0 3#8) =
    some (254#8, 0x02#8, 3#8) := by decide
/-- 2.4: `SUB r0, r0`. -/
theorem test_sub_self : stepView (fun t => (t.regs[0], t.flags)) (withReg (progAt 0 [0x03#8, 0x00#8, 0x00#8]) 0 77#8) =
    some (0#8, 0x01#8) := by decide
/-- R103: MOVE to memory; the low register index names the register, not the memory byte. -/
theorem test_move_to_memory : stepView (fun t => (t.mem.read 127, t.mem.read 0, t.regs[0]))
    (withReg (progAt 0 [0x01#8, 0x00#8, 0xFE#8]) 0 200#8) = some (200#8, 0x01#8, 200#8) := by decide
/-- P6: a literal destination. -/
theorem test_move_literal_dst : stepView (fun t => (t.status, t.pc)) (progAt 0 [0x01#8, 0x03#8, 0x05#8]) =
    some (.faulted ⟨.literalOperand .two, 0#8, 3#8⟩, 3#8) := by decide
/-- 2.5: taken and not taken. -/
theorem test_jumpIfFalse_not_taken : stepView (fun t => t.pc)
    ((withReg (progAt 15 [0x04#8, 0x03#8, 0x04#8]) 2 9#8).setFlags 0x01#8) = some 18#8 := by decide
theorem test_jumpIfFalse_taken : stepView (fun t => t.pc)
    ((withReg (progAt 15 [0x04#8, 0x03#8, 0x04#8]) 2 9#8).setFlags 0x02#8) = some 9#8 := by decide
/-- 2.6. -/
theorem test_jumpRegister_memory : stepView (fun t => t.pc) ((progAt 0 [0x05#8, 0x12#8]).setMem 9 40#8) = some 40#8 := by decide
theorem test_markPc : stepView (fun t => (t.regs[6], t.pc)) (progAt 3 [0x06#8, 0x0C#8]) = some (5#8, 5#8) := by decide
theorem test_markPc_at_end : stepView (fun t => t.regs[6]) (progAt 126 [0x06#8, 0x0C#8]) = some 128#8 := by decide
/-- 2.7: NUMERIC -1 stores 255. -/
theorem test_input_negative : stepView (fun t => (t.regs[0], t.inputs, t.ioLog)) ((progAt 0 [0x07#8, 0x03#8, 0x00#8]).supply (-1)) =
    some (255#8, [], [.consumed .numeric (-1)]) := by decide
/-- 2.7: with no value supplied no step is taken; an INPUT that faults is not held up. -/
theorem test_input_waits : stepStop (progAt 0 [0x07#8, 0x03#8, 0x00#8]) = some (.awaitingInput .numeric) ∧
    stepStop (progAt 0 [0x07#8, 0x05#8, 0x00#8]) = none := by decide
theorem test_output : stepView (fun t => (t.outputs, t.pc)) (withReg (progAt 0 [0x08#8, 0x03#8, 0x08#8]) 4 42#8) =
    some ([(.numeric, 42#8)], 3#8) := by decide
/-- 43_io.md R144: NUMERIC 0 renders as "0" and a newline, 42 as "42" and a newline; the largest byte has three digits. -/
theorem test_render_numeric : renderOutput (.numeric, 0#8) = [48, 10] ∧ renderOutput (.numeric, 42#8) = [52, 50, 10] ∧
    renderOutput (.numeric, 255#8) = [50, 53, 53, 10] := by decide
theorem test_output_unknown_channel : stepView (fun t => (t.status, t.outputs))
    (withReg (progAt 0 [0x08#8, 0x02#8, 0x00#8]) 1 9#8) = some (.faulted ⟨.unsupportedChannel 9#8, 0#8, 3#8⟩, []) := by decide
/-- 2.8. -/
theorem test_addressOf : stepView (fun t => t.regs[3]) (progAt 0 [0x09#8, 0xC8#8, 0x06#8]) = some 200#8 := by decide
theorem test_addressOfIndirect : stepView (fun t => t.mem.read 100) (withReg (progAt 0 [0x0A#8, 0x55#8, 0x06#8]) 3 200#8) =
    some 42#8 := by decide
theorem test_addressOfIndirect_odd : stepView (fun t => t.status) (withReg (progAt 0 [0x0A#8, 0x55#8, 0x06#8]) 3 7#8) =
    some (.faulted ⟨.literalOperand .indirect, 0#8, 3#8⟩) := by decide
/-- 2.9: MOVE at 127 lacks an operand byte; `MOVE m[100], r4` in a pool of 64 bytes. -/
theorem test_operand_fetch_fault : stepView (fun t => (t.status, t.pc)) (progAt 127 [0x01#8]) =
    some (.faulted ⟨.fetchOutOfRange 128#8, 127#8, 128#8⟩, 128#8) := by decide
theorem test_address_out_of_range : stepView (fun t => t.status) (poolOf 64 (progAt 0 [0x01#8, 0xC8#8, 0x08#8])) =
    some (.faulted ⟨.addressOutOfRange 100#7, 0#8, 3#8⟩) := by decide
/-- W6. -/
theorem test_unknown_opcode : stepView (fun t => (t.status, t.pc)) (progAt 0 [0xFF#8]) =
    some (.halted (.unknownOpcode 0xFF#8), 1#8) := by decide
/-- The cause codes of 60_exceptions.md R181. -/
theorem test_fault_codes : (FaultCause.fetchOutOfRange 0#8).code = 1 ∧ (FaultCause.literalOperand .one).code = 2 ∧
    (FaultCause.addressOutOfRange 8#7).code = 3 ∧ (FaultCause.unsupportedChannel 2#8).code = 4 := by decide
/-- `withFetchWord` makes the next step run the word: `MOVE #5, r1`. -/
theorem test_withFetchWord : stepView (fun t => t.regs[1]) (State.reset.withFetchWord 24 0x020B01) = some 5#8 := by decide
/-- The first two lines of P2 with a label, and the refusals of R13 and R72. -/
theorem test_assemble : assemble Config.standard
    [.instruction .addressOf [.cell 100, .register 3], .label "l", .instruction .move [.labelLiteral "l", .register 0]] =
    some [(0, 0x09#8), (1, 0xC8#8), (2, 0x06#8), (3, 0x01#8), (4, 0x07#8), (5, 0x00#8)] := by decide
theorem test_assemble_refuses : assemble Config.standard [.instruction .move [.literal 128, .register 0]] = none ∧
    assemble Config.standard [.instruction .move [.cell 7, .register 0]] = none ∧
    assemble Config.standard [.instruction .markPc [.register 8]] = none ∧
    assemble Config.standard [.instruction .move [.labelLiteral "unbound", .register 0]] = none := by decide

/-! Witnesses: the hypotheses of each obligation are met together by a concrete state and operands. -/

theorem reg_inRange (cfg : Config) : inRange cfg (.ref 7#7) := Or.inl (by decide)
theorem lit_inRange (cfg : Config) : inRange cfg (.lit 127#7) := trivial
theorem mem_inRange_first : inRange Config.standard (.ref 8#7) := Or.inr (by decide)
theorem mem_inRange_last : inRange Config.standard (.ref 127#7) := Or.inr (by decide)
theorem beyond_cfg64 : ¬ inRange cfg64 (.ref 64#7) := fun h => h.elim (by decide) (by decide)

/-- A pool of two bytes; images for it are 18 bytes long. -/
def cfg2 : Config := { Config.standard with memSize := 2 }

def image2 (magic memsize pc : Byte) (payload : List Byte) : List Byte :=
  [magic, 0x20#8, 0#8, 0#8, 0x12#8, 0#8, 0#8, 0#8, memsize, 0#8, 0#8, 0#8, pc, 0#8, 0#8, 0#8] ++ payload

theorem witness_ImageLoadBuildsTheResetState : cfg2.valid = true ∧
    ∃ t, load cfg2 (.bytes (image2 0x17#8 2#8 1#8 [7#8, 0#8])) = .ok t := ⟨by decide, _, rfl⟩

theorem witness_LoadFaultsInOrder :
    (List.replicate 15 0#8).length < 16 ∧
    (16 ≤ (image2 0x18#8 2#8 0#8 []).length ∧ u32At cfg2 (image2 0x18#8 2#8 0#8 []) 0 ≠ 0x2017) ∧
    (u32At cfg2 (image2 0x17#8 3#8 0#8 []) 0 = 0x2017 ∧ u32At cfg2 (image2 0x17#8 3#8 0#8 []) 8 ≠ cfg2.memSize) ∧
    (u32At cfg2 (image2 0x17#8 2#8 2#8 []) 8 = cfg2.memSize ∧ cfg2.memSize ≤ u32At cfg2 (image2 0x17#8 2#8 2#8 []) 12) ∧
    (u32At cfg2 (image2 0x17#8 2#8 1#8 [9#8]) 12 < cfg2.memSize ∧
      (image2 0x17#8 2#8 1#8 [9#8]).length < 16 + cfg2.memSize) ∧
    (16 + cfg2.memSize ≤ (image2 0x17#8 2#8 1#8 [9#8, 9#8]).length ∧
      u32At cfg2 (image2 0x17#8 2#8 1#8 [9#8, 9#8]) 12 < cfg2.memSize) ∧
    load cfg2 .unreadable = .error .loadUnreadable := by
  refine ⟨by decide, ⟨by decide, by decide⟩, ⟨by decide, by decide⟩, ⟨by decide, by decide⟩, ⟨by decide, by decide⟩,
    ⟨by decide, by decide⟩, rfl⟩

theorem witness_SizeFieldAndTrailingBytesAreIgnored : ([0x17#8, 0x20#8, 0#8, 0#8] : List Byte).length = 4 ∧
    ([0x12#8, 0#8, 0#8, 0#8] : List Byte).length = 4 ∧ ([0#8, 0#8, 0#8, 0#8] : List Byte).length = 4 ∧
    ∃ t, load cfg2 (.bytes ([0x17#8, 0x20#8, 0#8, 0#8] ++ ([0x12#8, 0#8, 0#8, 0#8] ++
      [2#8, 0#8, 0#8, 0#8, 1#8, 0#8, 0#8, 0#8, 7#8, 0#8]))) = .ok t := ⟨by decide, by decide, by decide, _, rfl⟩

theorem witness_DefaultImageLoadBuildsTheResetState : Config.standard.valid = true := by decide

/-- A core halted inside a pool of two bytes, and one halted at its end. -/
def haltedAt (pc : Byte) : State := { State.reset with cfg := cfg2, pc := pc, mem := [(0, 7#8)], status := .halted .suspend }

theorem haltedAt_inv (pc : Byte) (h : 1 ≤ pc.toNat) (h' : pc.toNat ≤ 2) : (haltedAt pc).Inv :=
  ⟨(by decide : cfg2.valid = true), (by decide : Memory.wf [(0, 7#8)] = true),
    (by decide : ∀ c ∈ ([(0, 7#8)] : Memory), c.1 < 2), fun k _ _ => BitVec.getLsbD_zero, ⟨h, h'⟩⟩

theorem witness_SavedImageHoldsPcAndMemory : (haltedAt 2#8).cfg.valid = true ∧ (haltedAt 2#8).status = .halted .suspend ∧
    ∀ c, State.reset.status ≠ .halted c := ⟨by decide, rfl, fun _ => Status.noConfusion⟩

theorem witness_SaveThenLoadKeepsPcAndMemory : (haltedAt 1#8).Inv ∧ (∃ bs, saveImage (haltedAt 1#8) = some bs) ∧
    (haltedAt 1#8).pc.toNat < (haltedAt 1#8).cfg.memSize := ⟨haltedAt_inv _ (by decide) (by decide), ⟨_, rfl⟩, by decide⟩

theorem witness_ImageSavedAtPoolEndDoesNotLoad : (haltedAt 2#8).Inv ∧ (∃ bs, saveImage (haltedAt 2#8) = some bs) ∧
    (haltedAt 2#8).pc.toNat = (haltedAt 2#8).cfg.memSize := ⟨haltedAt_inv _ (by decide) (by decide), ⟨_, rfl⟩, by decide⟩

theorem witness_OperandByteIsTagAndPayload : (0xFF#8).toNat % 2 = 1 ∧ (0xFE#8).toNat % 2 = 0 := by decide

theorem witness_OperandEncodingsRoundTrip : encodeLiteral 127 = some 0xFF#8 ∧ encodeLiteral 128 = none ∧
    encodeReference 127 = some 0xFE#8 := by decide

theorem witness_DecodeOfEncodeIsTheInstruction : Config.standard.valid = true := by decide

theorem witness_EncodeOfDecodeIsTheBytes : decode cfg64 [0x06#8, 0x0C#8, 0xAA#8] = .ok (.markPc (.ref 6#7), [0xAA#8]) := by decide

/-- `MOVE #5, r1` in the last three bytes of the pool. -/
def moveAtEnd : State := progAt 125 [0x01#8, 0x0B#8, 0x02#8]

theorem witness_StepRunsTheDecodedInstruction : moveAtEnd.status = .running ∧
    decode moveAtEnd.cfg (moveAtEnd.bytesFrom moveAtEnd.pc.toNat 3) = .ok (.move (.lit 5#7) (.ref 1#7), []) := by decide

theorem witness_EncodedInstructionInMemoryRuns : moveAtEnd.cfg.valid = true ∧ moveAtEnd.status = .running ∧
    moveAtEnd.pc.toNat + (Instr.move (.lit 5#7) (.ref 1#7)).length ≤ moveAtEnd.cfg.memSize ∧
    ∀ k, k < (Instr.move (.lit 5#7) (.ref 1#7)).length →
      (encode moveAtEnd.cfg (.move (.lit 5#7) (.ref 1#7)))[k]? = some (moveAtEnd.mem.read (moveAtEnd.pc.toNat + k)) := by decide

theorem witness_UnassignedOpcodeHalts : (progAt 127 [0x0B#8]).status = .running ∧
    (progAt 127 [0x0B#8]).pc.toNat < (progAt 127 [0x0B#8]).cfg.memSize ∧
    ∀ m, (progAt 127 [0x0B#8]).cfg.opcodes.value m ≠ (progAt 127 [0x0B#8]).mem.read (progAt 127 [0x0B#8]).pc.toNat :=
  ⟨by decide, by decide, fun m => by cases m <;> decide⟩

theorem witness_FetchBeyondThePoolFaults :
    ((progAt 128 []).status = .running ∧ (progAt 128 []).cfg.memSize ≤ (progAt 128 []).pc.toNat) ∧
    ((progAt 127 [0x01#8]).cfg.valid = true ∧ (progAt 127 [0x01#8]).pc.toNat < (progAt 127 [0x01#8]).cfg.memSize ∧
      (progAt 127 [0x01#8]).mem.read 127 = (progAt 127 [0x01#8]).cfg.opcodes.value .move ∧ 1 ≤ Mnemonic.move.arity ∧
      (progAt 127 [0x01#8]).pc.toNat + 1 = (progAt 127 [0x01#8]).cfg.memSize) ∧
    ((progAt 126 [0x01#8]).mem.read 126 = (progAt 126 [0x01#8]).cfg.opcodes.value .move ∧ 2 ≤ Mnemonic.move.arity ∧
      (progAt 126 [0x01#8]).pc.toNat + 2 = (progAt 126 [0x01#8]).cfg.memSize) := by decide

theorem witness_TerminalStatesTakeNoStep : (haltedAt 1#8).status = .halted .suspend ∧
    (State.reset.takeFault 0#8 3#8 (.literalOperand .two)).status = .faulted ⟨.literalOperand .two, 0#8, 3#8⟩ := by decide

theorem witness_OnlyTheInputWaitStopsARunningCore : State.reset.status = .running ∧ (∀ ch dst, Instr.suspend ≠ .input ch dst) ∧
    (State.reset.supply 7).inputs ≠ [] ∧ step (progAt 125 [0x07#8, 0x01#8, 0x00#8]) = .fault (.awaitingInput .character) :=
  ⟨rfl, fun _ _ => Instr.noConfusion, by decide, rfl⟩

theorem witness_StepWaitsExactlyAtAnUnsuppliedInput : (progAt 125 [0x07#8, 0x01#8, 0x00#8]).cfg.valid = true ∧
    (progAt 125 [0x07#8, 0x01#8, 0x00#8]).inputs = [] ∧
    step (progAt 125 [0x07#8, 0x01#8, 0x00#8]) = .fault (.awaitingInput .character) := ⟨by decide, rfl, rfl⟩

theorem witness_FaultsArePrecise :
    (∃ t, step (progAt 127 [0x01#8]) = .next t ∧ t.status = .faulted ⟨.fetchOutOfRange 128#8, 127#8, 128#8⟩) ∧
    (∃ t, step (progAt 0 [0x01#8, 0x03#8, 0x05#8]) = .next t ∧ t.status = .faulted ⟨.literalOperand .two, 0#8, 3#8⟩) ∧
    decode Config.standard ((progAt 0 [0x01#8, 0x03#8, 0x05#8]).bytesFrom 0 3) = .ok (.move (.lit 1#7) (.lit 2#7), []) :=
  ⟨⟨_, rfl, rfl⟩, ⟨_, rfl, rfl⟩, by decide⟩

theorem witness_LiteralInAddrPositionFaults : inRange State.reset.cfg (.lit 127#7) ∧ inRange State.reset.cfg (.ref 7#7) :=
  ⟨trivial, reg_inRange _⟩

theorem witness_ReferenceBeyondThePoolFaults : ¬ inRange (poolOf 64 State.reset).cfg (.ref 64#7) ∧
    inRange (poolOf 64 State.reset).cfg (.lit 127#7) ∧ inRange (poolOf 64 State.reset).cfg (.ref 7#7) :=
  ⟨beyond_cfg64, trivial, reg_inRange _⟩

theorem three_names_nothing : ∀ p, ¬ namesChannel State.reset.cfg (State.reset.valueOf (.lit 3#7)) p
  | .character => (by decide : State.reset.valueOf (.lit 3#7) ≠ State.reset.cfg.chanCharacter)
  | .numeric => (by decide : State.reset.valueOf (.lit 3#7) ≠ State.reset.cfg.chanNumeric)

theorem witness_UnsupportedChannelFaults : State.reset.cfg.valid = true ∧ inRange State.reset.cfg (.lit 2#7) ∧
    inRange State.reset.cfg (.ref 7#7) ∧ State.reset.valueOf (.lit 2#7) = State.reset.cfg.chanString ∧
    ∀ p, ¬ namesChannel State.reset.cfg (State.reset.valueOf (.lit 3#7)) p :=
  ⟨by decide, trivial, reg_inRange _, by decide, three_names_nothing⟩

theorem witness_BadPointerFaults : inRange State.reset.cfg (.lit 42#7) ∧ inRange State.reset.cfg (.ref 7#7) ∧
    ((withReg State.reset 7 1#8).valueOf (.ref 7#7)).toNat % 2 = 1 ∧
    ((withReg (poolOf 64 State.reset) 7 128#8).valueOf (.ref 7#7)).toNat = 2 * (64#7).toNat ∧
    ¬ inRange (poolOf 64 State.reset).cfg (.ref 64#7) := ⟨trivial, reg_inRange _, by decide, by decide, beyond_cfg64⟩

/-- A jump whose register holds the first index beyond the pool. -/
def jumpOut (bs : List Byte) : State := withReg (progAt 0 bs) 7 128#8

theorem witness_JumpOutOfThePoolFaultsAtTheNextFetch :
    ((jumpOut [0x05#8, 0x0E#8]).status = .running ∧ inRange (jumpOut [0x05#8, 0x0E#8]).cfg (.ref 7#7) ∧
      decode (jumpOut [0x05#8, 0x0E#8]).cfg ((jumpOut [0x05#8, 0x0E#8]).bytesFrom 0 3) =
        .ok (.jumpRegister (.ref 7#7), [0#8]) ∧
      (jumpOut [0x05#8, 0x0E#8]).cfg.memSize ≤ ((jumpOut [0x05#8, 0x0E#8]).valueOf (.ref 7#7)).toNat) ∧
    (decode (jumpOut [0x04#8, 0x07#8, 0x0E#8]).cfg ((jumpOut [0x04#8, 0x07#8, 0x0E#8]).bytesFrom 0 3) =
        .ok (.jumpIfFalse (.lit 3#7) (.ref 7#7), []) ∧
      (jumpOut [0x04#8, 0x07#8, 0x0E#8]).flags &&& (jumpOut [0x04#8, 0x07#8, 0x0E#8]).valueOf (.lit 3#7) = 0#8) :=
  ⟨⟨by decide, reg_inRange _, by decide, by decide⟩, by decide, by decide⟩

/-- The operand hypotheses of the MOVE, ADD, SUB, JUMP-IF-FALSE, JUMP-REGISTER, MARK-PC and ADDRESS-OF statements: a literal and
references at both ends of the register window and of the pool. -/
theorem witness_operands : inRange State.reset.cfg (.lit 127#7) ∧ inRange State.reset.cfg (.ref 7#7) ∧
    inRange State.reset.cfg (.ref 8#7) ∧ inRange State.reset.cfg (.ref 127#7) :=
  ⟨trivial, reg_inRange _, mem_inRange_first, mem_inRange_last⟩

theorem witness_AddStoresTheSumAndFlags : inRange State.reset.cfg (.lit 1#7) ∧ inRange State.reset.cfg (.ref 7#7) ∧
    255 = ((withReg State.reset 7 255#8).valueOf (.ref 7#7)).toNat ∧ 1 = (State.reset.valueOf (.lit 1#7)).toNat :=
  ⟨trivial, reg_inRange _, by decide, by decide⟩

theorem witness_SubStoresTheDifferenceAndFlags : inRange State.reset.cfg (.lit 1#7) ∧ inRange State.reset.cfg (.ref 7#7) ∧
    0 = (State.reset.valueOf (.ref 7#7)).toNat ∧ 1 = (State.reset.valueOf (.lit 1#7)).toNat :=
  ⟨trivial, reg_inRange _, by decide, by decide⟩

theorem witness_JumpIfFalseTestsTheNamedFlags :
    (∀ k : Fin 8, (State.reset.valueOf (.lit 3#7)).getLsbD k = true → State.reset.flags.getLsbD k = false) ∧
    ∃ k : Fin 8, ((State.reset.setFlags 2#8).valueOf (.lit 3#7)).getLsbD k = true ∧ (State.reset.setFlags 2#8).flags.getLsbD k = true :=
  by decide

theorem witness_InputStoresTheSuppliedValue : State.reset.cfg.valid = true ∧ inRange State.reset.cfg (.lit 1#7) ∧
    inRange State.reset.cfg (.ref 127#7) ∧ namesChannel State.reset.cfg (State.reset.valueOf (.lit 1#7)) .numeric ∧
    (State.reset.supply (-1)).inputs = -1 :: [] :=
  ⟨by decide, trivial, mem_inRange_last, (by decide : State.reset.valueOf (.lit 1#7) = State.reset.cfg.chanNumeric), by decide⟩

theorem witness_InputWaitsForTheEnvironment : State.reset.cfg.valid = true ∧ inRange State.reset.cfg (.lit 0#7) ∧
    inRange State.reset.cfg (.ref 7#7) ∧ namesChannel State.reset.cfg (State.reset.valueOf (.lit 0#7)) .character ∧
    State.reset.inputs = [] := ⟨by decide, trivial, reg_inRange _, (by decide : State.reset.valueOf (.lit 0#7) = State.reset.cfg.chanCharacter), rfl⟩

theorem witness_OutputEmitsTheContents : State.reset.cfg.valid = true ∧ inRange State.reset.cfg (.lit 1#7) ∧
    inRange State.reset.cfg (.ref 7#7) ∧ namesChannel State.reset.cfg (State.reset.valueOf (.lit 1#7)) .numeric :=
  ⟨by decide, trivial, reg_inRange _, (by decide : State.reset.valueOf (.lit 1#7) = State.reset.cfg.chanNumeric)⟩

theorem witness_AddressOfIndirectStoresThroughThePointer : inRange State.reset.cfg (.lit 42#7) ∧
    inRange State.reset.cfg (.ref 7#7) ∧ ((withReg State.reset 7 254#8).valueOf (.ref 7#7)).toNat = 2 * (127#7).toNat ∧
    inRange State.reset.cfg (.ref 127#7) := ⟨trivial, reg_inRange _, by decide, mem_inRange_last⟩

theorem reset_inv : State.reset.Inv := ⟨by decide, by decide, by decide, by decide, trivial⟩

theorem witness_PointerIdiomStoresIntoTheCell : State.reset.Inv ∧ inRange State.reset.cfg (.ref 127#7) ∧
    inRange State.reset.cfg (.ref 7#7) ∧ inRange State.reset.cfg (.lit 127#7) ∧
    ∃ t u, exec (.addressOf (.ref 127#7) (.ref 7#7)) State.reset = .next t ∧
      exec (.addressOfIndirect (.lit 127#7) (.ref 7#7)) t = .next u :=
  ⟨reset_inv, mem_inRange_last, reg_inRange _, trivial, _, _, rfl, rfl⟩

theorem witness_StoringInstructionsChangeOnlyTheirDestination :
    (∃ t, exec (.move (.lit 5#7) (.ref 7#7)) State.reset = .next t) ∧
    (∃ t, exec (.move (.lit 5#7) (.ref 8#7)) State.reset = .next t) ∧
    locate State.reset.cfg 8#7 = some (.mem 8) ∧ locate State.reset.cfg 7#7 = some (.reg 7) :=
  ⟨⟨_, rfl⟩, ⟨_, rfl⟩, by decide, by decide⟩

theorem witness_IndirectStoreChangesOnlyThePointedCell :
    (∃ t, exec (.addressOfIndirect (.lit 42#7) (.ref 3#7)) (withReg State.reset 3 16#8) = .next t) ∧
    decodeOperand ((withReg State.reset 3 16#8).valueOf (.ref 3#7)) = .ref 8#7 ∧ locate State.reset.cfg 8#7 = some (.mem 8) :=
  ⟨⟨_, rfl⟩, by decide, by decide⟩

theorem witness_OtherInstructionsStoreNothing : (∃ t, exec .suspend State.reset = .next t) ∧
    (∃ t, exec (.jumpIfFalse (.lit 1#7) (.ref 7#7)) State.reset = .next t) ∧
    (∃ t, exec (.jumpRegister (.ref 7#7)) State.reset = .next t) ∧
    ∃ t, exec (.output (.lit 1#7) (.ref 7#7)) State.reset = .next t := ⟨⟨_, rfl⟩, ⟨_, rfl⟩, ⟨_, rfl⟩, ⟨_, rfl⟩⟩

theorem witness_OnlyAddAndSubWriteTheFlags :
    ((∃ t, step (progAt 0 [0x02#8, 0x03#8, 0x00#8]) = .next t ∧ t.status = .running) ∧
      (progAt 0 [0x02#8, 0x03#8, 0x00#8]).instructionAt = .ok (.add (.lit 1#7) (.ref 0#7), [])) ∧
    ((∃ t, step (progAt 0 [0x03#8, 0x03#8, 0x00#8]) = .next t ∧ t.status = .running) ∧
      (progAt 0 [0x03#8, 0x03#8, 0x00#8]).instructionAt = .ok (.sub (.lit 1#7) (.ref 0#7), [])) ∧
    (∃ t, step State.reset = .next t) ∧ State.reset.instructionAt = .ok (.suspend, [0#8, 0#8]) :=
  ⟨⟨⟨_, rfl, rfl⟩, by decide⟩, ⟨⟨_, rfl, rfl⟩, by decide⟩, ⟨_, rfl⟩, by decide⟩

theorem witness_NoStepWritesTheFirstEightBytes : (∃ t, step State.reset = .next t) ∧ 7 < 8 := ⟨⟨_, rfl⟩, by decide⟩

theorem witness_OnlyInputAndOutputCrossThePort :
    (∃ t, step ((progAt 0 [0x07#8, 0x03#8, 0x00#8]).supply 300) = .next t) ∧
    ∃ t, step (progAt 0 [0x08#8, 0x03#8, 0x00#8]) = .next t := ⟨⟨_, rfl⟩, ⟨_, rfl⟩⟩

theorem witness_EveryStepKeepsTheInvariant : State.reset.Inv ∧ ∃ t, step State.reset = .next t := ⟨reset_inv, _, rfl⟩

theorem witness_OperandAccessFollowsTheReferenceMap : (7#7).toNat < 8 ∧
    (8 ≤ (8#7).toNat ∧ (8#7).toNat < Config.standard.memSize) ∧ (8 ≤ (127#7).toNat ∧ (127#7).toNat < Config.standard.memSize) ∧
    (8 ≤ (64#7).toNat ∧ cfg64.memSize ≤ (64#7).toNat) := by decide

theorem witness_StoreThenLoadReturnsTheValue : State.reset.mem.wf = true ∧ (8#7 : Payload) ≠ 7#7 := by decide

theorem witness_FetchSeesStores : State.reset.mem.wf = true ∧ (8 ≤ (8#7).toNat ∧ (8#7).toNat < State.reset.cfg.memSize) ∧
    (127#7).toNat < State.reset.cfg.memSize ∧ (7#7).toNat < 8 := by decide

theorem witness_LoadedStateMeetsInvariant : cfg2.valid = true ∧
    ∃ t, load cfg2 (.bytes (image2 0x17#8 2#8 1#8 [7#8, 0#8])) = .ok t := ⟨by decide, _, rfl⟩

theorem witness_EveryRunKeepsTheInvariant : State.reset.Inv := reset_inv

/-- An environment that answers every request with one value. -/
def always (v : Int) : Environment := fun _ _ => some v

theorem witness_AnsweredRunNeverWaitsForever : ∀ log p, always 65 log p ≠ none := fun _ _ h => by cases h

/-- R88's example at the end of the pool: `JUMP-REGISTER r7` at 126 with `x[7] = 126`. -/
theorem witness_JumpToItselfDiverges : (withReg (progAt 126 [0x05#8, 0x0E#8]) 7 126#8).status = .running ∧
    inRange (withReg (progAt 126 [0x05#8, 0x0E#8]) 7 126#8).cfg (.ref 7#7) ∧
    decode Config.standard ((withReg (progAt 126 [0x05#8, 0x0E#8]) 7 126#8).bytesFrom 126 3) =
      .ok (.jumpRegister (.ref 7#7), []) ∧
    (withReg (progAt 126 [0x05#8, 0x0E#8]) 7 126#8).valueOf (.ref 7#7) = 126#8 := ⟨rfl, reg_inRange _, by decide, by decide⟩

/-! R88's outcomes with INPUT: a loop of `INPUT #0, r0` and `JUMP-REGISTER r1` diverges where every request is answered, and
waits forever where none is. -/

/-- The states of that loop: any value read, any record. -/
def inputLoop (pc v : Byte) (log : List IoEvent) : State :=
  { State.reset with
    pc := pc, regs := #v[v, 0#8, 0#8, 0#8, 0#8, 0#8, 0#8, 0#8], ioLog := log
    mem := [(0, 0x07#8), (1, 0x01#8), (3, 0x05#8), (4, 0x02#8)] }

/-- At either instruction of the loop. -/
def InInputLoop (s : State) : Prop := ∃ v log, s = inputLoop 0#8 v log ∨ s = inputLoop 3#8 v log

theorem inputLoop_waits (v : Byte) (log : List IoEvent) :
    step (inputLoop 0#8 v log) = .fault (.awaitingInput .character) := by
  with_unfolding_all rfl

theorem inputLoop_reads (env : Environment) (v : Byte) (log : List IoEvent) (w : Int) (h : env log .character = some w) :
    step ((inputLoop 0#8 v log).answered env) = .next (inputLoop 3#8 (BitVec.ofInt 8 w) (log ++ [.consumed .character w])) := by
  rw [answered_of_supplied (awaitedChannel_eq_some_iff.2 (inputLoop_waits v log)) h]
  with_unfolding_all rfl

theorem inputLoop_jumps (v : Byte) (log : List IoEvent) : step (inputLoop 3#8 v log) = .next (inputLoop 0#8 v log) := by
  with_unfolding_all rfl

/-- Where every request is answered, the loop always has a step, and it stays in the loop. -/
theorem inputLoop_moves (w : Int) {s : State} (h : InInputLoop s) :
    s.status = .running ∧ ∃ t, step (s.answered (always w)) = .next t ∧ InInputLoop t := by
  obtain ⟨v, log, rfl | rfl⟩ := h
  · exact ⟨rfl, _, inputLoop_reads _ v log w rfl, _, _, .inr rfl⟩
  · rw [answered_of_none (awaitedChannel_eq_none_of_next (inputLoop_jumps v log))]
    exact ⟨rfl, _, inputLoop_jumps v log, _, _, .inl rfl⟩

theorem test_answered_inputLoop_diverges (w : Int) : (inputLoop 0#8 0#8 []).EndsIn (always w) .diverging := by
  have stays : ∀ n, InInputLoop ((inputLoop 0#8 0#8 []).after (always w) n) :=
    after_induction (fun s hs => by
      obtain ⟨-, t, ht, hl⟩ := inputLoop_moves w hs
      rwa [tick_of_next ht]) ⟨_, _, .inl rfl⟩
  intro n
  obtain ⟨hr, t, ht, -⟩ := inputLoop_moves w (stays n)
  exact ⟨hr, t, ht⟩

theorem test_unanswered_inputLoop_waits : (inputLoop 0#8 0#8 []).EndsIn (fun _ _ => none) .waitingForever :=
  ⟨0, .character, awaitedChannel_eq_some_iff.2 (inputLoop_waits _ _), rfl⟩

end Sys2Proof.Tests
end

section
/-! Operand access, case by case along the reference-space map (20_memory.md R43). -/
namespace Sys2Proof.Machine

theorem not_inRange_of_beyond {cfg : Config} {i : Payload} (h8 : 8 ≤ i.toNat) (hm : cfg.memSize ≤ i.toNat) :
    ¬ inRange cfg (.ref i) :=
  not_or.2 ⟨h8.not_gt, hm.not_gt⟩

theorem valueOf_reg (s : State) {i : Payload} (h : i.toNat < 8) : s.valueOf (.ref i) = s.regs[i.toNat] := dif_pos h

theorem valueOf_mem (s : State) {i : Payload} (h : 8 ≤ i.toNat) : s.valueOf (.ref i) = s.mem.read i.toNat :=
  dif_neg h.not_gt

/-- Seven bits fit in a byte, so a literal loses nothing when it is read (20_memory.md R44). -/
theorem valueOf_lit_toNat (s : State) (n : Payload) : (s.valueOf (.lit n)).toNat = n.toNat := by
  have fits : n.toNat < 2 ^ 8 := n.isLt.trans (by decide)
  rw [State.valueOf, BitVec.toNat_ofNat, Nat.mod_eq_of_lt fits]

/-- Settles O49: operand access is the value or the store of a reference in range and a fault beyond, and each part of the
reference-space map says which register or memory byte that is. -/
theorem operandAccessFollowsTheReferenceMap : Obligations.OperandAccessFollowsTheReferenceMap := by
  intro s slot v n i
  refine ⟨⟨_, readOp_lit s n, valueOf_lit_toNat s n⟩, writeOp_lit s slot n v, fun hreg => ?_, fun h8 hmem => ?_,
    fun h8 hbeyond => ?_⟩
  · have hin : inRange s.cfg (.ref i) := .inl hreg
    rw [readOp_of_inRange hin, writeOp_of_inRange slot v hin, valueOf_reg s hreg, stored_reg s v hreg]
    exact ⟨rfl, rfl⟩
  · have hin : inRange s.cfg (.ref i) := .inr hmem
    rw [readOp_of_inRange hin, writeOp_of_inRange slot v hin, valueOf_mem s h8, stored_mem s v h8]
    exact ⟨rfl, rfl⟩
  · have hout := not_inRange_of_beyond h8 hbeyond
    exact ⟨readOp_of_not_inRange hout, writeOp_of_not_inRange slot v hout⟩

end Sys2Proof.Machine
end

section
/-! The operand byte as a number: its tag is its parity, its payload the half below (30_encoding.md R61, R62). -/
namespace Sys2Proof.Machine

theorem tag_eq_parity (b : Byte) : b.getLsbD 0 = decide (b.toNat % 2 = 1) := Nat.testBit_zero _

/-- The payload is bits 7..1 as they stand: half the byte, which seven bits hold, so nothing is cut off. -/
theorem payload_toNat (b : Byte) : (b.extractLsb' 1 7).toNat = b.toNat / 2 := by
  have fits : b.toNat / 2 < 2 ^ 7 := by have := b.isLt; omega
  rw [BitVec.extractLsb'_toNat, Nat.shiftRight_one, Nat.mod_eq_of_lt fits]

theorem decodeOperand_of_odd {b : Byte} (h : b.toNat % 2 = 1) : decodeOperand b = .lit (b.extractLsb' 1 7) :=
  if_pos ((tag_eq_parity b).trans (decide_eq_true h))

theorem decodeOperand_of_even {b : Byte} (h : b.toNat % 2 = 0) : decodeOperand b = .ref (b.extractLsb' 1 7) := by
  have tag : b.getLsbD 0 = false := (tag_eq_parity b).trans (decide_eq_false (by omega))
  rw [decodeOperand, tag, if_neg Bool.false_ne_true]

/-- Settles O10: the tag is the byte's parity, and the payload is half the byte under either tag. -/
theorem operandByteIsTagAndPayload : Obligations.OperandByteIsTagAndPayload := fun b =>
  ⟨fun odd => ⟨_, payload_toNat b, decodeOperand_of_odd odd⟩,
   fun even => ⟨_, payload_toNat b, decodeOperand_of_even even⟩⟩

end Sys2Proof.Machine
end

section
/-! The two ways the loop halts: an unassigned opcode byte (40_dispatch.md R85) and SUSPEND (R84). -/
namespace Sys2Proof.Machine

theorem bytesFrom_succ (s : State) {a : Nat} (n : Nat) (h : a < s.cfg.memSize) :
    s.bytesFrom a (n + 1) = s.mem.read a :: s.bytesFrom (a + 1) n := if_pos h

theorem decode_of_unassigned {cfg : Config} {b : Byte} (rest : List Byte) (h : ∀ m, cfg.opcodes.value m ≠ b) :
    decode cfg (b :: rest) = .error (.unassigned b) := by
  rw [decode, decodeMnemonic_eq_none.2 h]

/-- The opcode byte alone decides: the operand bytes after it need not be in the pool. -/
theorem instructionAt_of_unassigned {s : State} (hpc : s.pc.toNat < s.cfg.memSize)
    (h : ∀ m, s.cfg.opcodes.value m ≠ s.mem.read s.pc.toNat) :
    s.instructionAt = .error (.unassigned (s.mem.read s.pc.toNat)) := by
  rw [State.instructionAt, bytesFrom_succ s 2 hpc, decode_of_unassigned _ h]

theorem runStep_of_unassigned {s : State} {b : Byte} (h : s.instructionAt = .error (.unassigned b)) :
    runStep s = .next ((s.setPc (s.pc + 1#8)).halt (.unknownOpcode b)) := by
  rw [runStep, h]

/-- Settles O18: the byte is fetched, the lookup finds no mnemonic for it, and the loop halts past it. -/
theorem unassignedOpcodeHalts : Obligations.UnassignedOpcodeHalts := by
  intro s running hpc unassigned
  rw [step_running running, runStep_of_unassigned (instructionAt_of_unassigned hpc unassigned)]
  rfl

/-- Settles O28: SUSPEND has no operand to check, so its handler runs, on the state whose `pc` is already past it. -/
theorem suspendHalts : Obligations.SuspendHalts := by
  intro s
  have accepted : Instr.suspend.wellFormed s.cfg = true := rfl
  rw [exec_eq_runInstr, runInstr_wellFormed accepted]
  rfl

end Sys2Proof.Machine
end

section
/-! The ALU as arithmetic on numbers (41_move_arith.md R100, R101, R107), and the two instructions that use it and write `flags`
(R102, R104, R105). -/
namespace Sys2Proof.Machine

theorem aluAdd_value (a b : Byte) : (aluAdd a b).value = BitVec.ofNat 8 ((a.toNat + b.toNat) % 256) := by
  refine BitVec.eq_of_toNat_eq ?_
  rw [aluAdd, BitVec.toNat_add, BitVec.toNat_ofNat, Nat.mod_mod]

theorem aluAdd_zero (a b : Byte) : (aluAdd a b).zero = decide ((a.toNat + b.toNat) % 256 = 0) :=
  decide_eq_decide.2 (by rw [BitVec.toNat_eq, BitVec.toNat_add]; rfl)

/-- Wraparound makes the sum fall below the old value, and nothing else does (R107). -/
theorem aluAdd_carry (a b : Byte) : (aluAdd a b).carry = decide (256 ≤ a.toNat + b.toNat) := by
  refine decide_eq_decide.2 ?_
  rw [BitVec.lt_def, BitVec.toNat_add]
  have := a.isLt
  have := b.isLt
  omega

/-- Two bytes stay below 512 together, so their sum is 0 modulo 256 at 0 and at 256 only. -/
theorem sum_mod_eq_zero_iff (a b : Byte) :
    (a.toNat + b.toNat) % 256 = 0 ↔ a.toNat + b.toNat = 256 ∨ a.toNat + b.toNat = 0 := by
  have := a.isLt
  have := b.isLt
  omega

theorem aluSub_value (a b : Byte) : (aluSub a b).value = BitVec.ofInt 8 (((a.toNat : Int) - b.toNat) % 256) := by
  refine BitVec.eq_of_toInt_eq ?_
  rw [aluSub, BitVec.toInt_sub, BitVec.toInt_ofInt, BitVec.toInt_eq_toNat_bmod, BitVec.toInt_eq_toNat_bmod,
    Int.bmod_sub_bmod, Int.sub_bmod_bmod]
  exact (Int.emod_bmod _ 256).symm

theorem aluSub_zero (a b : Byte) : (aluSub a b).zero = decide (a = b) :=
  decide_eq_decide.2 sub_eq_zero

/-- The difference rises above the old value exactly when it borrows (R107). -/
theorem aluSub_carry (a b : Byte) : (aluSub a b).carry = decide (a.toNat < b.toNat) := by
  refine decide_eq_decide.2 ?_
  rw [BitVec.lt_def, BitVec.toNat_sub]
  have := a.isLt
  have := b.isLt
  omega

/-- Two bytes differ by less than 256, so their difference is 0 modulo 256 only when they are equal. -/
theorem difference_emod_eq_zero_iff (a b : Byte) : ((a.toNat : Int) - b.toNat) % 256 = 0 ↔ a = b := by
  rw [BitVec.toNat_eq]
  have := a.isLt
  have := b.isLt
  omega

/-- The flag write as claims put it (R102). -/
theorem flagsOf_eq_flagByte (cfg : Config) (r : AluResult) : flagsOf cfg r = flagByte cfg r.zero r.carry := rfl

/-- With both operands in range nothing in the shared handler stops. -/
theorem arithmetic_of_inRange {alu : Byte → Byte → AluResult} {src : Operand} {i : Payload} {s : State}
    (hsrc : inRange s.cfg src) (hdst : inRange s.cfg (.ref i)) :
    arithmetic alu src (.ref i) s = .ok ((s.stored i (alu (s.valueOf (.ref i)) (s.valueOf src)).value).setFlags
      (flagByte s.cfg (alu (s.valueOf (.ref i)) (s.valueOf src)).zero (alu (s.valueOf (.ref i)) (s.valueOf src)).carry)) := by
  rw [arithmetic, readOp_of_inRange hsrc, readOp_of_inRange hdst, ok_bind, ok_bind, writeOp_of_inRange .two _ hdst]
  rfl

/-- What ADD and SUB do alike: an accepted three-byte instruction with the shared handler stores what its ALU function answers,
writes all of `flags` and goes on past its three bytes. -/
theorem runInstr_arithmetic {ins : Instr} {alu : Byte → Byte → AluResult} {src : Operand} {i : Payload} {s : State}
    {r : AluResult} (hw : ins.wellFormed s.cfg = true) (hlen : ins.length = 3) (hsrc : inRange s.cfg src)
    (hdst : inRange s.cfg (.ref i)) (hr : alu (s.valueOf (.ref i)) (s.valueOf src) = r) :
    runInstr ins (arithmetic alu src (.ref i)) s =
      .next { s.stored i r.value with pc := s.pc + 3#8, flags := flagByte s.cfg r.zero r.carry } := by
  have past : pcAfter s.pc ins = s.pc + 3#8 := by rw [pcAfter, hlen]
  rw [runInstr_wellFormed hw, past, arithmetic_of_inRange (s := s.setPc (s.pc + 3#8)) hsrc hdst, valueOf_setPc, valueOf_setPc,
    hr, stored_setPc]
  rfl

theorem wellFormed_src_dst {cfg : Config} {src : Operand} {i : Payload} (hsrc : inRange cfg src)
    (hdst : inRange cfg (.ref i)) : (src.exprOk cfg && (Operand.ref i).addrOk cfg) = true :=
  Bool.and_eq_true_iff.2 ⟨exprOk_iff.2 hsrc, addrOk_iff.2 ⟨i, rfl, hdst⟩⟩

/-- Settles O30: the shared handler runs with the ALU's sum, whose three parts are facts about `old + delta`. -/
theorem addStoresTheSumAndFlags : Obligations.AddStoresTheSumAndFlags := by
  rintro s src i _ _ hsrc hdst rfl rfl
  rw [← aluAdd_value, ← aluAdd_zero, ← aluAdd_carry]
  exact runInstr_arithmetic (wellFormed_src_dst hsrc hdst) rfl hsrc hdst rfl

/-- Settles O31: the shared handler runs with the ALU's difference, whose three parts are facts about `old - delta`. -/
theorem subStoresTheDifferenceAndFlags : Obligations.SubStoresTheDifferenceAndFlags := by
  rintro s src i _ _ hsrc hdst rfl rfl
  rw [← aluSub_value, decide_eq_decide.2 (difference_emod_eq_zero_iff _ _), ← aluSub_zero, ← aluSub_carry]
  exact runInstr_arithmetic (wellFormed_src_dst hsrc hdst) rfl hsrc hdst rfl

end Sys2Proof.Machine
end

section
/-! Which steps write `flags` (41_move_arith.md R102). -/
namespace Sys2Proof.Machine

/-- A decoded instruction whose step leaves no fault has had its effect. -/
theorem effect_of_step {s t : State} {i : Instr} {rest : List Byte} (h : step s = .next t)
    (hi : s.instructionAt = .ok (i, rest)) (unfaulted : ∀ f, t.status ≠ .faulted f) :
    Effect i (s.setPc (pcAfter s.pc i)) t := by
  rw [step_running (running_of_step h), runStep, hi] at h
  obtain ⟨c, rfl, -⟩ | ⟨-, effect⟩ := exec_cases h
  · exact absurd (State.takeFault_status s s.pc _ c) (unfaulted _)
  · exact effect

theorem add_effect_flags {src dst : Operand} {s t : State} (h : Effect (.add src dst) s t) :
    t.flags = flagsOf s.cfg (aluAdd (s.valueOf dst) (s.valueOf src)) := by
  obtain ⟨i, -, rfl⟩ := h
  exact State.setFlags_flags _ _

theorem sub_effect_flags {src dst : Operand} {s t : State} (h : Effect (.sub src dst) s t) :
    t.flags = flagsOf s.cfg (aluSub (s.valueOf dst) (s.valueOf src)) := by
  obtain ⟨i, -, rfl⟩ := h
  exact State.setFlags_flags _ _

/-- Every instruction but ADD and SUB leaves `flags` as it was. -/
theorem effect_flags {i : Instr} {s t : State} (notAdd : ∀ src dst, i ≠ .add src dst) (notSub : ∀ src dst, i ≠ .sub src dst)
    (h : Effect i s t) : t.flags = s.flags := by
  cases i with
  | add src dst => exact absurd rfl (notAdd src dst)
  | sub src dst => exact absurd rfl (notSub src dst)
  | suspend =>
    cases h
    exact State.halt_flags _ _
  | move src dst =>
    obtain ⟨i, -, rfl⟩ := h
    exact stored_flags _ _ _
  | jumpIfFalse flagMask addr =>
    cases h
    split <;> rfl
  | jumpRegister addr =>
    cases h
    exact State.setPc_flags _ _
  | markPc dst =>
    obtain ⟨i, -, rfl⟩ := h
    exact stored_flags _ _ _
  | input channel dst =>
    obtain ⟨i, p, v, rest, -, -, -, rfl⟩ := h
    exact stored_flags _ _ _
  | output channel src =>
    obtain ⟨p, -, rfl⟩ := h
    exact State.logIo_flags _ _
  | addressOf ref dst =>
    obtain ⟨i, j, -, -, rfl⟩ := h
    exact stored_flags _ _ _
  | addressOfIndirect src ref =>
    obtain ⟨j, -, -, rfl⟩ := h
    exact stored_flags _ _ _

/-- A fault discards the instruction's effect, the flag write too (60_exceptions.md R184). -/
theorem exec_flags {i : Instr} {s t : State} (notAdd : ∀ src dst, i ≠ .add src dst) (notSub : ∀ src dst, i ≠ .sub src dst)
    (h : exec i s = .next t) : t.flags = s.flags := by
  obtain ⟨c, rfl, -⟩ | ⟨-, effect⟩ := exec_cases h
  · exact State.takeFault_flags _ _ _ _
  · rw [effect_flags notAdd notSub effect, State.setPc_flags]

theorem step_flags {s t : State} (h : step s = .next t)
    (neither : ∀ src dst rest, s.instructionAt ≠ .ok (.add src dst, rest) ∧ s.instructionAt ≠ .ok (.sub src dst, rest)) :
    t.flags = s.flags := by
  obtain ⟨i, rest, hi, hexec⟩ | ⟨-, rfl⟩ | ⟨b, -, rfl⟩ | ⟨k, -, rfl⟩ := step_cases h
  · refine exec_flags (fun src dst hadd => ?_) (fun src dst hsub => ?_) hexec
    · exact (neither src dst rest).1 (hadd ▸ hi)
    · exact (neither src dst rest).2 (hsub ▸ hi)
  · exact State.takeFault_flags _ _ _ _
  · exact State.halt_flags _ _
  · exact State.takeFault_flags _ _ _ _

/-- Settles O44: an ADD or SUB that completes has its effect, whose last act is the flag write; no other step writes `flags`. -/
theorem onlyAddAndSubWriteTheFlags : Obligations.OnlyAddAndSubWriteTheFlags := by
  refine fun s t h => ⟨fun src dst rest hi unfaulted => ?_, fun src dst rest hi unfaulted => ?_, step_flags h⟩
  · rw [add_effect_flags (effect_of_step h hi unfaulted), valueOf_setPc, valueOf_setPc, flagsOf_eq_flagByte, aluAdd_zero,
      aluAdd_carry, decide_eq_decide.2 (sum_mod_eq_zero_iff _ _), State.setPc_cfg]
  · rw [sub_effect_flags (effect_of_step h hi unfaulted), valueOf_setPc, valueOf_setPc, flagsOf_eq_flagByte, aluSub_zero,
      aluSub_carry, State.setPc_cfg]

end Sys2Proof.Machine
end

section
/-! Jumps (42_control.md R120 to R122, R124): one that is taken completes wherever it goes, and the fetch after it faults when
that is beyond the pool. -/
namespace Sys2Proof.Machine

/-- The step of a RUNNING core runs what the decoder reads at `pc` (40_dispatch.md R87). -/
theorem step_of_instructionAt {s : State} {i : Instr} {rest : List Byte} (running : s.status = .running)
    (hi : s.instructionAt = .ok (i, rest)) : step s = exec i s := by
  rw [step_running running, runStep, hi]

/-- An accepted instruction whose handler completes has no other outcome than the handler's state. -/
theorem exec_of_handler {i : Instr} {s t : State} (accepted : i.wellFormed s.cfg = true)
    (completes : handler i (s.setPc (pcAfter s.pc i)) = .ok t) : exec i s = .next t := by
  rw [exec_eq_runInstr, runInstr_wellFormed accepted, completes, finish]

/-- The target is the contents of addr, not its index (R120), and no bound on it is checked. -/
theorem handler_jumpRegister {s : State} {addr : Operand} (haddr : inRange s.cfg addr) :
    handler (.jumpRegister addr) s = .ok (s.setPc (s.valueOf addr)) := by
  rw [handler, readOp_of_inRange haddr, ok_bind]
  rfl

theorem handler_jumpIfFalse {s : State} {m addr : Operand} (hm : inRange s.cfg m) (haddr : inRange s.cfg addr) :
    handler (.jumpIfFalse m addr) s =
      .ok (if flagsClear s.flags (s.valueOf m) then s.setPc (s.valueOf addr) else s) := by
  rw [handler, readOp_of_inRange hm, readOp_of_inRange haddr, ok_bind, ok_bind]
  rfl

/-- The `pc` past the jump is overwritten by the target. -/
theorem exec_jumpRegister {s : State} {addr : Payload} (haddr : inRange s.cfg (.ref addr)) :
    exec (.jumpRegister (.ref addr)) s = .next (s.setPc (s.valueOf (.ref addr))) := by
  refine exec_of_handler (addrOk_iff.2 ⟨addr, rfl, haddr⟩) ?_
  rw [handler_jumpRegister, valueOf_setPc]
  · rfl
  · exact haddr

theorem exec_jumpIfFalse_taken {s : State} {m : Operand} {addr : Payload} (hm : inRange s.cfg m)
    (haddr : inRange s.cfg (.ref addr)) (clear : s.flags &&& s.valueOf m = 0#8) :
    exec (.jumpIfFalse m (.ref addr)) s = .next (s.setPc (s.valueOf (.ref addr))) := by
  have taken : flagsClear s.flags (s.valueOf m) = true := decide_eq_true clear
  refine exec_of_handler (wellFormed_src_dst hm haddr) ?_
  rw [handler_jumpIfFalse, valueOf_setPc, valueOf_setPc, State.setPc_flags, if_pos taken]
  · rfl
  · exact hm
  · exact haddr

/-- With `pc` beyond the pool there is no opcode byte to decode (40_dispatch.md R81). -/
theorem instructionAt_beyond {s : State} (beyond : s.cfg.memSize ≤ s.pc.toNat) : s.instructionAt = .error .noOpcode := by
  rw [State.instructionAt, bytesFrom_eq_nil beyond, decode]

theorem step_beyond {s : State} (running : s.status = .running) (beyond : s.cfg.memSize ≤ s.pc.toNat) :
    step s = .next (s.takeFault s.pc s.pc (.fetchOutOfRange s.pc)) := by
  rw [step_running running, runStep, instructionAt_beyond beyond]

/-- Settles O27: either jump completes with its target in `pc`, and a step with `pc` beyond the pool takes the fetch fault. -/
theorem jumpOutOfThePoolFaultsAtTheNextFetch : Obligations.JumpOutOfThePoolFaultsAtTheNextFetch := by
  rintro s i rest addr _ running haddr hi jumps rfl beyond
  refine ⟨?_, step_beyond (s := s.setPc (s.valueOf (.ref addr))) running beyond⟩
  rw [step_of_instructionAt running hi]
  obtain rfl | ⟨m, rfl, hm, clear⟩ := jumps
  · exact exec_jumpRegister haddr
  · exact exec_jumpIfFalse_taken hm haddr clear

end Sys2Proof.Machine
end

section
/-! Faults are precise (60_exceptions.md R182, R184): a completed instruction never faults, one that faults never names a fetch
address, and a fetch fault names the `pc` it reached. -/
namespace Sys2Proof.Machine

/-- A completed instruction leaves the run state alone, but for SUSPEND, which halts. -/
theorem effect_status {i : Instr} {s t : State} (h : Effect i s t) : t.status = s.status ∨ t.status = .halted .suspend := by
  cases i with
  | suspend =>
    cases h
    exact .inr (State.halt_status _ _)
  | move src dst =>
    obtain ⟨i, -, rfl⟩ := h
    exact .inl (stored_status _ _ _)
  | add src dst =>
    obtain ⟨i, -, rfl⟩ := h
    exact .inl (stored_status _ _ _)
  | sub src dst =>
    obtain ⟨i, -, rfl⟩ := h
    exact .inl (stored_status _ _ _)
  | jumpIfFalse flagMask addr =>
    cases h
    split <;> exact .inl rfl
  | jumpRegister addr =>
    cases h
    exact .inl (State.setPc_status _ _)
  | markPc dst =>
    obtain ⟨i, -, rfl⟩ := h
    exact .inl (stored_status _ _ _)
  | input channel dst =>
    obtain ⟨i, p, v, rest, -, -, -, rfl⟩ := h
    exact .inl (stored_status _ _ _)
  | output channel src =>
    obtain ⟨p, -, rfl⟩ := h
    exact .inl (State.logIo_status _ _)
  | addressOf ref dst =>
    obtain ⟨i, j, -, -, rfl⟩ := h
    exact .inl (stored_status _ _ _)
  | addressOfIndirect src ref =>
    obtain ⟨j, -, -, rfl⟩ := h
    exact .inl (stored_status _ _ _)

theorem effect_unfaulted {i : Instr} {s t : State} (running : s.status = .running) (h : Effect i s t) (f : FaultRecord) :
    t.status ≠ .faulted f := by
  intro faulted
  obtain same | halted := effect_status h
  · cases faulted.symm.trans (same.trans running)
  · cases faulted.symm.trans halted

theorem ok_ne_error {ε α : Type} {x : α} {e : ε} : Except.ok x ≠ .error e := nofun

/-- A sequence cannot stop with what neither of its parts stops with. -/
theorem bind_ne_error {ε α β : Type} {x : Except ε α} {f : α → Except ε β} {e : ε} (hx : x ≠ .error e)
    (hf : ∀ a, f a ≠ .error e) : (x >>= f) ≠ .error e := by
  intro h
  obtain h | ⟨a, -, h⟩ := bind_eq_error h
  · exact hx h
  · exact hf a h

/-! FETCH_OUT_OF_RANGE is raised by the fetch alone: no operand check and no handler raises it. -/

section fetch
variable {s : State} {o : Operand} {a : Byte}

theorem checkOperand_ne_fetchOutOfRange {cfg : Config} {pos : OperandPos} {kind : OperandKind} :
    checkOperand cfg pos kind o ≠ some (.fetchOutOfRange a) := by
  cases o with
  | lit n => cases kind <;> simp
  | ref i =>
    by_cases hr : inRange cfg (.ref i)
    · simp [checkOperand_ref_ok pos kind hr]
    · simp [checkOperand_ref_bad pos kind hr]

theorem checkOperands_ne_fetchOutOfRange {cfg : Config} :
    ∀ os : List (OperandPos × OperandKind × Operand), checkOperands cfg os ≠ some (.fetchOutOfRange a)
  | [] => by simp
  | (pos, kind, o) :: rest => by
    unfold checkOperands
    split
    · rename_i c hc
      exact hc ▸ checkOperand_ne_fetchOutOfRange
    · exact checkOperands_ne_fetchOutOfRange rest

theorem readOp_ne_fetchOutOfRange : s.readOp o ≠ .error (.fault (.fetchOutOfRange a)) := by
  by_cases hr : inRange s.cfg o
  · simp [readOp_of_inRange hr]
  · cases o with
    | lit n => exact absurd trivial hr
    | ref i => simp [readOp_of_not_inRange hr]

theorem writeOp_ne_fetchOutOfRange {slot : OperandPos} {v : Byte} :
    s.writeOp slot o v ≠ .error (.fault (.fetchOutOfRange a)) := by
  cases o with
  | lit n => simp
  | ref i =>
    by_cases hr : inRange s.cfg (.ref i)
    · simp [writeOp_of_inRange slot v hr]
    · simp [writeOp_of_not_inRange slot v hr]

theorem referenceIndex_ne_fetchOutOfRange {pos : OperandPos} :
    referenceIndex pos o ≠ .error (.fault (.fetchOutOfRange a)) := by
  cases o <;> simp [referenceIndex]

theorem selectChannel_ne_fetchOutOfRange {cfg : Config} {c : Byte} :
    selectChannel cfg c ≠ .error (.fault (.fetchOutOfRange a)) := by
  unfold selectChannel
  split <;> simp

theorem ioIn_ne_fault {p : PortChannel} {c : FaultCause} : s.ioIn p ≠ .error (.fault c) := by
  unfold State.ioIn
  split <;> simp

theorem arithmetic_ne_fetchOutOfRange {alu : Byte → Byte → AluResult} {src dst : Operand} :
    arithmetic alu src dst s ≠ .error (.fault (.fetchOutOfRange a)) :=
  bind_ne_error readOp_ne_fetchOutOfRange fun _ => bind_ne_error readOp_ne_fetchOutOfRange fun _ =>
    bind_ne_error writeOp_ne_fetchOutOfRange fun _ => ok_ne_error

theorem handler_ne_fetchOutOfRange {i : Instr} : handler i s ≠ .error (.fault (.fetchOutOfRange a)) := by
  cases i with
  | suspend => exact ok_ne_error
  | move src dst => exact bind_ne_error readOp_ne_fetchOutOfRange fun _ => writeOp_ne_fetchOutOfRange
  | add src dst => exact arithmetic_ne_fetchOutOfRange
  | sub src dst => exact arithmetic_ne_fetchOutOfRange
  | jumpIfFalse flagMask addr =>
    exact bind_ne_error readOp_ne_fetchOutOfRange fun _ => bind_ne_error readOp_ne_fetchOutOfRange fun _ =>
      ok_ne_error
  | jumpRegister addr => exact bind_ne_error readOp_ne_fetchOutOfRange fun _ => ok_ne_error
  | markPc dst => exact writeOp_ne_fetchOutOfRange
  | input channel dst =>
    exact bind_ne_error readOp_ne_fetchOutOfRange fun _ => bind_ne_error selectChannel_ne_fetchOutOfRange fun _ =>
      bind_ne_error ioIn_ne_fault fun _ => writeOp_ne_fetchOutOfRange
  | output channel src =>
    exact bind_ne_error readOp_ne_fetchOutOfRange fun _ => bind_ne_error selectChannel_ne_fetchOutOfRange fun _ =>
      bind_ne_error readOp_ne_fetchOutOfRange fun _ => ok_ne_error
  | addressOf ref dst => exact bind_ne_error referenceIndex_ne_fetchOutOfRange fun _ => writeOp_ne_fetchOutOfRange
  | addressOfIndirect src ref =>
    exact bind_ne_error readOp_ne_fetchOutOfRange fun _ => bind_ne_error readOp_ne_fetchOutOfRange fun _ =>
      writeOp_ne_fetchOutOfRange

end fetch

/-- An instruction that leaves the core FAULTED took a fault past its own bytes, and not a fetch fault. -/
theorem exec_faulted {i : Instr} {s t : State} {f : FaultRecord} (running : s.status = .running) (h : exec i s = .next t)
    (faulted : t.status = .faulted f) :
    ∃ c, t = s.takeFault s.pc (pcAfter s.pc i) c ∧ ∀ a, c ≠ .fetchOutOfRange a := by
  obtain ⟨c, ht, raised⟩ | ⟨-, effect⟩ := exec_cases h
  · refine ⟨c, ht, fun a hc => ?_⟩
    obtain check | ⟨-, body⟩ := raised
    · exact checkOperands_ne_fetchOutOfRange _ (hc ▸ check)
    · exact handler_ne_fetchOutOfRange (hc ▸ body)
  · exact absurd faulted (effect_unfaulted (s := s.setPc (pcAfter s.pc i)) running effect f)

/-- A step that leaves the core FAULTED took one fault: the decoded instruction's, past its bytes, or the fetch's, at the
address it could not read. -/
theorem step_faulted {s t : State} {f : FaultRecord} (h : step s = .next t) (faulted : t.status = .faulted f) :
    ∃ reached c, t = s.takeFault s.pc reached c ∧
      ((∃ i rest, s.instructionAt = .ok (i, rest) ∧ reached = pcAfter s.pc i ∧ ∀ a, c ≠ .fetchOutOfRange a) ∨
        ∃ e, s.instructionAt = .error e ∧ c = .fetchOutOfRange reached) := by
  obtain ⟨i, rest, hi, hexec⟩ | ⟨hi, ht⟩ | ⟨b, -, rfl⟩ | ⟨k, hi, ht⟩ := step_cases h
  · obtain ⟨c, ht, notFetch⟩ := exec_faulted (running_of_step h) hexec faulted
    exact ⟨_, c, ht, .inl ⟨i, rest, hi, rfl, notFetch⟩⟩
  · exact ⟨_, _, ht, .inr ⟨_, hi, rfl⟩⟩
  · cases faulted
  · exact ⟨_, _, ht, .inr ⟨_, hi, rfl⟩⟩

/-- Settles O22: the next state is the one fault taken from the state before; which fault it is says what `pc` reached. -/
theorem faultsArePrecise : Obligations.FaultsArePrecise := by
  intro s t f h faulted
  obtain ⟨reached, c, rfl, raised⟩ := step_faulted h faulted
  cases faulted
  refine ⟨rfl, rfl, rfl, fun a fetch => ?_, fun i rest hi => ?_⟩
  · obtain ⟨-, -, -, -, notFetch⟩ | ⟨-, -, hc⟩ := raised
    · exact absurd fetch (notFetch a)
    · exact FaultCause.fetchOutOfRange.inj (hc.symm.trans fetch)
  · obtain ⟨j, rest', hj, past, -⟩ | ⟨e, he, -⟩ := raised
    · cases hj.symm.trans hi
      exact past
    · cases he.symm.trans hi

end Sys2Proof.Machine
end

section
/-! The header of an image as the claims read it (70_reset_and_hazards.md R201): four bytes weighted by IMAGE_BYTE_ORDER. -/
namespace Sys2Proof.Machine

theorem drop_eq_getD_cons {bs : List Byte} {o : Nat} (h : o < bs.length) : bs.drop o = bs.getD o 0#8 :: bs.drop (o + 1) := by
  rw [List.drop_eq_getElem_cons h, List.getD_eq_getElem _ _ h]

theorem take_four_drop {bs : List Byte} {o : Nat} (h : o + 4 ≤ bs.length) :
    (bs.drop o).take 4 = [bs.getD o 0#8, bs.getD (o + 1) 0#8, bs.getD (o + 2) 0#8, bs.getD (o + 3) 0#8] := by
  rw [drop_eq_getD_cons (by omega), drop_eq_getD_cons (by omega), drop_eq_getD_cons (by omega), drop_eq_getD_cons (by omega)]
  rfl

/-- A field that lies inside the image: the parser's number is the weighted sum, in either byte order. -/
theorem headerField_eq_u32At {cfg : Config} {bs : List Byte} {o : Nat} (h : o + 4 ≤ bs.length) :
    headerField cfg bs o = u32At cfg bs o := by
  rw [headerField, take_four_drop h]
  cases horder : cfg.imageByteOrder <;> simp only [readU32, u32At, horder]
  case little => simp only [numberOfBytes]; omega
  case big => simp only [List.reverse_cons, List.reverse_nil, List.nil_append, List.cons_append, numberOfBytes]; omega

/-- Bytes after a field do not change it. -/
theorem u32At_append {cfg : Config} {bs : List Byte} (extra : List Byte) {o : Nat} (h : o + 4 ≤ bs.length) :
    u32At cfg (bs ++ extra) o = u32At cfg bs o := by
  rw [← headerField_eq_u32At (by rw [List.length_append]; omega), ← headerField_eq_u32At h, headerField, headerField,
    List.drop_append_of_le_length (by omega), List.take_append_of_le_length (by rw [List.length_drop]; omega)]

end Sys2Proof.Machine
end

section
/-! The load of an image (70_reset_and_hazards.md R202, R204 to R206): the checks it makes, and what it builds when all pass. -/
namespace Sys2Proof.Machine

theorem memSize_le_of_valid {cfg : Config} (h : cfg.valid = true) : cfg.memSize ≤ 128 := by
  simp only [Config.valid, Bool.and_eq_true, decide_eq_true_eq] at h
  omega

/-- The pc and the payload of a byte string that holds a header and a pool of bytes. -/
def imageIn (cfg : Config) (bs : List Byte) : Image where
  pc := u32At cfg bs 12
  payload := (bs.drop 16).take cfg.memSize

/-- None of R202's conditions holds. -/
structure Loadable (cfg : Config) (bs : List Byte) : Prop where
  complete : 16 + cfg.memSize ≤ bs.length
  magic : u32At cfg bs 0 = 0x2017
  memsize : u32At cfg bs 8 = cfg.memSize
  pcInPool : u32At cfg bs 12 < cfg.memSize

variable {cfg : Config} {bs : List Byte}

theorem Loadable.header (h : Loadable cfg bs) : 16 ≤ bs.length := (Nat.le_add_right ..).trans h.complete

theorem load_of_short (h : bs.length < 16) : load cfg (.bytes bs) = .error .shortHeader := by
  simp [load, parseImage, Config.imageHeaderSize, h]

/-- What a load answers once the header is complete: the remaining checks, in R202's order. -/
theorem load_of_header (h : 16 ≤ bs.length) : load cfg (.bytes bs) =
    if u32At cfg bs 0 ≠ 0x2017 then .error .badMagic
    else if u32At cfg bs 8 ≠ cfg.memSize then .error .memsizeMismatch
    else if cfg.memSize ≤ u32At cfg bs 12 then .error .pcOutOfRange
    else if bs.length < 16 + cfg.memSize then .error .shortPayload
    else .ok (resetFrom cfg (imageIn cfg bs)) := by
  have payload : bs.length - 16 < cfg.memSize ↔ bs.length < 16 + cfg.memSize := by omega
  simp only [load, parseImage, Config.imageHeaderSize, Config.imageMagic, if_neg h.not_gt, payload, imageIn,
    headerField_eq_u32At (cfg := cfg) (show 0 + 4 ≤ bs.length by omega),
    headerField_eq_u32At (cfg := cfg) (show 8 + 4 ≤ bs.length by omega),
    headerField_eq_u32At (cfg := cfg) (show 12 + 4 ≤ bs.length by omega)]
  split_ifs <;> rfl

theorem load_of_loadable (h : Loadable cfg bs) : load cfg (.bytes bs) = .ok (resetFrom cfg (imageIn cfg bs)) := by
  rw [load_of_header h.header, if_neg (not_not.2 h.magic), if_neg (not_not.2 h.memsize),
    if_neg h.pcInPool.not_ge, if_neg h.complete.not_gt]

/-- A load that succeeds passed every check, and built the reset state of the image it read. -/
theorem load_bytes_cases {t : State} (h : load cfg (.bytes bs) = .ok t) :
    Loadable cfg bs ∧ t = resetFrom cfg (imageIn cfg bs) := by
  by_cases short : bs.length < 16
  · cases (load_of_short short).symm.trans h
  · rw [load_of_header (not_lt.1 short)] at h
    split_ifs at h with magic memsize pc payload
    exact ⟨⟨not_lt.1 payload, not_not.1 magic, not_not.1 memsize, not_le.1 pc⟩, (Except.ok.inj h).symm⟩

/-- The payload placed at 0: index `k` of memory is byte `16 + k` of the image (R205). -/
theorem read_resetFrom_imageIn {k : Nat} (complete : 16 + cfg.memSize ≤ bs.length) (hk : k < cfg.memSize) :
    bs[16 + k]? = some ((resetFrom cfg (imageIn cfg bs)).mem.read k) := by
  have inPayload : (imageIn cfg bs).payload[k]? = bs[16 + k]? := by
    rw [imageIn, List.getElem?_take_of_lt hk, List.getElem?_drop]
  have placed := Memory.read_ofBytes (imageIn cfg bs).payload 0 k
  rw [Nat.zero_add, List.getD_eq_getElem?_getD, inPayload, List.getElem?_eq_getElem (by omega)] at placed
  rw [List.getElem?_eq_getElem (by omega)]
  exact congrArg some placed.symm

/-- The load reads the first four bytes, what follows the size field, and how long the image is. -/
theorem load_congr {bs' : List Byte} (length : bs.length = bs'.length) (magic : bs.take 4 = bs'.take 4)
    (rest : bs.drop 8 = bs'.drop 8) : load cfg (.bytes bs) = load cfg (.bytes bs') := by
  have beyond : ∀ n, bs.drop (8 + n) = bs'.drop (8 + n) := fun n => by rw [← List.drop_drop, rest, List.drop_drop]
  have field : ∀ n, headerField cfg bs (8 + n) = headerField cfg bs' (8 + n) := fun n => by
    rw [headerField, headerField, beyond]
  have first : headerField cfg bs 0 = headerField cfg bs' 0 := by
    rw [headerField, headerField, List.drop_zero, List.drop_zero, magic]
  have parsed : parseImage cfg bs = parseImage cfg bs' := by
    rw [parseImage, parseImage, length, first, field 0, field 4, Config.imageHeaderSize, beyond 8]
  rw [load, load, parsed]

theorem Loadable.append (h : Loadable cfg bs) (extra : List Byte) : Loadable cfg (bs ++ extra) where
  complete := h.complete.trans (by rw [List.length_append]; exact Nat.le_add_right ..)
  magic := (u32At_append extra (le_trans (by decide) h.header)).trans h.magic
  memsize := (u32At_append extra (le_trans (by decide) h.header)).trans h.memsize
  pcInPool := (u32At_append extra h.header).trans_lt h.pcInPool

theorem imageIn_append (complete : 16 + cfg.memSize ≤ bs.length) (extra : List Byte) :
    imageIn cfg (bs ++ extra) = imageIn cfg bs := by
  rw [imageIn, imageIn, u32At_append extra (by omega), List.drop_append_of_le_length (by omega),
    List.take_append_of_le_length (by rw [List.length_drop]; omega)]

/-- A successful load does not see the bytes after the payload. -/
theorem load_append {t : State} (h : load cfg (.bytes bs) = .ok t) (extra : List Byte) :
    load cfg (.bytes (bs ++ extra)) = .ok t := by
  obtain ⟨loadable, rfl⟩ := load_bytes_cases h
  rw [load_of_loadable (loadable.append extra), imageIn_append loadable.complete]

end Sys2Proof.Machine
end

section
/-! What a load builds, and when it fails (70_reset_and_hazards.md R202, R204 to R206). -/
namespace Sys2Proof.Machine

/-- Settles O3: a successful load builds `resetFrom` of the image in the bytes; `pc` is below MEMSIZE, so a byte holds it whole. -/
theorem imageLoadBuildsTheResetState : Obligations.ImageLoadBuildsTheResetState := by
  intro cfg bs t valid h
  obtain ⟨loadable, rfl⟩ := load_bytes_cases h
  have pc_lt : u32At cfg bs 12 < 2 ^ 8 :=
    loadable.pcInPool.trans ((memSize_le_of_valid valid).trans_lt (by decide))
  refine ⟨fun k => read_resetFrom_imageIn loadable.complete, ?_, fun r => ?_, rfl, rfl⟩
  · exact (BitVec.toNat_ofNat ..).trans (Nat.mod_eq_of_lt pc_lt)
  · exact Vector.getElem_replicate ..

/-- Settles O4: each clause takes one branch of the load's checks; the exit status looks at nothing but the failure. -/
theorem loadFaultsInOrder : Obligations.LoadFaultsInOrder := by
  intro cfg bs
  refine ⟨rfl, load_of_short, fun header magic => ?_, fun header magic memsize => ?_, fun header magic memsize pc => ?_,
    fun header magic memsize pc payload => ?_, fun complete magic memsize pc => ?_, fun src f h => ?_⟩
  · rw [load_of_header header, if_pos magic]
  · rw [load_of_header header, if_neg (not_not.2 magic), if_pos memsize]
  · rw [load_of_header header, if_neg (not_not.2 magic), if_neg (not_not.2 memsize), if_pos pc]
  · rw [load_of_header header, if_neg (not_not.2 magic), if_neg (not_not.2 memsize), if_neg pc.not_ge, if_pos payload]
  · exact ⟨_, load_of_loadable ⟨complete, magic, memsize, pc⟩⟩
  · rw [h, loadExitStatus]

/-- Settles O5: the two images agree where the load looks, and a successful load is that of the longer image. -/
theorem sizeFieldAndTrailingBytesAreIgnored : Obligations.SizeFieldAndTrailingBytesAreIgnored := by
  intro cfg magic size size' rest extra hmagic hsize hsize'
  have first : ∀ bs, (magic ++ bs).take 4 = magic := fun bs => List.take_left' hmagic
  have beyond : ∀ s : List Byte, s.length = 4 → (magic ++ (s ++ rest)).drop 8 = rest := fun s hs => by
    rw [← List.append_assoc]
    exact List.drop_left' (by rw [List.length_append, hmagic, hs])
  refine ⟨load_congr ?_ ?_ ?_, fun t h => ?_⟩
  · simp only [List.length_append, hsize, hsize']
  · rw [first, first]
  · rw [beyond size hsize, beyond size' hsize']
  · simpa only [List.append_assoc] using load_append h extra

end Sys2Proof.Machine
end

section
/-! The codec both ways (30_encoding.md R60 to R74): what encodes is decoded back, what decodes is its own encoding, and when
operand bytes are missing. -/
namespace Sys2Proof.Machine

theorem encodedForm (i : Instr) : Laws.EncodedForm.Statement i := by
  cases i with
  | suspend => exact Laws.EncodedForm.suspend
  | move src dst => exact Laws.EncodedForm.move src dst
  | add src dst => exact Laws.EncodedForm.add src dst
  | sub src dst => exact Laws.EncodedForm.sub src dst
  | jumpIfFalse flagMask addr => exact Laws.EncodedForm.jumpIfFalse flagMask addr
  | jumpRegister addr => exact Laws.EncodedForm.jumpRegister addr
  | markPc dst => exact Laws.EncodedForm.markPc dst
  | input channel dst => exact Laws.EncodedForm.input channel dst
  | output channel src => exact Laws.EncodedForm.output channel src
  | addressOf ref dst => exact Laws.EncodedForm.addressOf ref dst
  | addressOfIndirect src ref => exact Laws.EncodedForm.addressOfIndirect src ref

theorem length_encode (cfg : Config) (i : Instr) : (encode cfg i).length = i.length := (encodedForm i cfg).1

/-- Under an injective OPCODE_VALUE a mnemonic's byte leads to its operands. -/
theorem decode_value_cons {cfg : Config} (valid : cfg.valid = true) (m : Mnemonic) (bs : List Byte) :
    decode cfg (cfg.opcodes.value m :: bs) = decodeOperands m bs := by
  rw [decode, decodeMnemonic_value valid]

/-- Settles O12: the opcode byte leads back to the mnemonic, whose operand bytes are read back one by one. -/
theorem decodeOfEncodeIsTheInstruction : Obligations.DecodeOfEncodeIsTheInstruction := by
  intro cfg i rest valid
  obtain ⟨-, -, operands⟩ := encodedForm i cfg
  rw [encode, List.cons_append, decode_value_cons valid, operands]

section operands
variable {i : Instr} {m : Mnemonic} {bs rest : List Byte}

theorem decodeOne_eq_ok {mk : Operand → Instr} (h : decodeOne mk bs = .ok (i, rest)) :
    ∃ o, bs = encodeOperand o :: rest ∧ i = mk o := by
  match bs with
  | [] => cases h
  | b :: _ =>
    cases h
    exact ⟨decodeOperand b, by rw [encodeOperand_decodeOperand], rfl⟩

theorem decodeTwo_eq_ok {mk : Operand → Operand → Instr} (h : decodeTwo mk bs = .ok (i, rest)) :
    ∃ o₁ o₂, bs = encodeOperand o₁ :: encodeOperand o₂ :: rest ∧ i = mk o₁ o₂ := by
  match bs with
  | [] => cases h
  | [_] => cases h
  | b₁ :: b₂ :: _ =>
    cases h
    exact ⟨decodeOperand b₁, decodeOperand b₂, by rw [encodeOperand_decodeOperand, encodeOperand_decodeOperand], rfl⟩

/-- Operands are read from exactly their own bytes. -/
theorem decodeOperands_eq_ok (h : decodeOperands m bs = .ok (i, rest)) : bs = encodeOperands i ++ rest := by
  cases m with
  | suspend =>
    cases h
    rfl
  | jumpRegister | markPc =>
    obtain ⟨o, rfl, rfl⟩ := decodeOne_eq_ok h
    rfl
  | move | add | sub | jumpIfFalse | input | output | addressOf | addressOfIndirect =>
    obtain ⟨o₁, o₂, rfl, rfl⟩ := decodeTwo_eq_ok h
    rfl

/-! Missing operand bytes: the first one is named (R74). -/

theorem decodeTwo_of_short {mk : Operand → Operand → Instr} (short : bs.length < 2) :
    decodeTwo mk bs = .error (.missingOperand (bs.length + 1)) := by
  match bs with
  | [] => rfl
  | [_] => rfl
  | _ :: _ :: _ => exact absurd short (by simp)

theorem decodeTwo_of_enough {mk : Operand → Operand → Instr} (enough : 2 ≤ bs.length) : ∃ r, decodeTwo mk bs = .ok r := by
  match bs with
  | [] => exact absurd enough (by decide)
  | [_] => exact absurd enough (by simp)
  | _ :: _ :: _ => exact ⟨_, rfl⟩

theorem decodeOne_of_enough {mk : Operand → Instr} (enough : 1 ≤ bs.length) : ∃ r, decodeOne mk bs = .ok r := by
  match bs with
  | [] => exact absurd enough (by decide)
  | _ :: _ => exact ⟨_, rfl⟩

theorem decodeOperands_of_short (short : bs.length < m.arity) :
    decodeOperands m bs = .error (.missingOperand (bs.length + 1)) := by
  cases m with
  | suspend => exact absurd short (Nat.not_lt_zero _)
  | jumpRegister | markPc =>
    obtain rfl : bs = [] := List.length_eq_zero_iff.1 (Nat.lt_one_iff.1 short)
    rfl
  | move | add | sub | jumpIfFalse | input | output | addressOf | addressOfIndirect => exact decodeTwo_of_short short

theorem decodeOperands_of_enough (enough : m.arity ≤ bs.length) : ∃ r, decodeOperands m bs = .ok r := by
  cases m with
  | suspend => exact ⟨_, rfl⟩
  | jumpRegister | markPc => exact decodeOne_of_enough enough
  | move | add | sub | jumpIfFalse | input | output | addressOf | addressOfIndirect => exact decodeTwo_of_enough enough

/-- All that can go wrong among the operands is that a byte is missing. -/
theorem decodeOperands_eq_error {e : DecodeError} (h : decodeOperands m bs = .error e) :
    e = .missingOperand (bs.length + 1) ∧ bs.length < m.arity := by
  obtain short | enough := Nat.lt_or_ge bs.length m.arity
  · exact ⟨(Except.error.inj ((decodeOperands_of_short short).symm.trans h)).symm, short⟩
  · obtain ⟨r, hr⟩ := decodeOperands_of_enough enough
    cases hr.symm.trans h

end operands

theorem arity_le_two (m : Mnemonic) : m.arity ≤ 2 := by cases m <;> decide

section decode
variable {cfg : Config} {bs rest : List Byte}

theorem decode_eq_ok {i : Instr} (h : decode cfg bs = .ok (i, rest)) : bs = encode cfg i ++ rest := by
  match bs with
  | [] => cases h
  | op :: bs =>
    rw [decode] at h
    split at h
    · cases h
    · rename_i m hm
      rw [encode, mnemonic_of_decodeOperands h, value_of_decodeMnemonic hm, List.cons_append, ← decodeOperands_eq_ok h]

theorem decode_eq_noOpcode (h : decode cfg bs = .error .noOpcode) : bs = [] := by
  match bs with
  | [] => rfl
  | op :: bs =>
    rw [decode] at h
    split at h
    · cases h
    · cases (decodeOperands_eq_error h).1

theorem decode_eq_missingOperand {k : Nat} (h : decode cfg bs = .error (.missingOperand k)) : bs.length = k ∧ k ≤ 2 := by
  match bs with
  | [] => cases h
  | op :: bs =>
    rw [decode] at h
    split at h
    · cases h
    · rename_i m hm
      obtain ⟨hk, short⟩ := decodeOperands_eq_error h
      cases hk
      exact ⟨rfl, short.trans_le (arity_le_two m)⟩

end decode

/-- Settles O13: the opcode byte is the mnemonic's, and the operands are read from their own bytes. -/
theorem encodeOfDecodeIsTheBytes : Obligations.EncodeOfDecodeIsTheBytes := fun _ _ _ _ h => decode_eq_ok h

end Sys2Proof.Machine
end

section
/-! The fetch: how many bytes it can read, and what it read when an instruction was decoded or a byte was missing
(40_dispatch.md R81). -/
namespace Sys2Proof.Machine

theorem length_bytesFrom (s : State) : ∀ n a : Nat, (s.bytesFrom a n).length = min n (s.cfg.memSize - a)
  | 0, a => by rw [State.bytesFrom, List.length_nil, Nat.zero_min]
  | n + 1, a => by
    by_cases inPool : a < s.cfg.memSize
    · rw [bytesFrom_succ s n inPool, List.length_cons, length_bytesFrom s n (a + 1)]
      omega
    · rw [bytesFrom_eq_nil (not_lt.1 inPool), List.length_nil]
      omega

/-- A decoded instruction lies in the pool with all its bytes. -/
theorem fits_of_instructionAt {s : State} {i : Instr} {rest : List Byte} (h : s.instructionAt = .ok (i, rest)) :
    s.pc.toNat + i.length ≤ s.cfg.memSize := by
  have read := congrArg List.length (decode_eq_ok h)
  rw [length_bytesFrom, List.length_append, length_encode] at read
  have := length_pos i
  omega

theorem beyond_of_noOpcode {s : State} (h : s.instructionAt = .error .noOpcode) : s.cfg.memSize ≤ s.pc.toNat := by
  have read := congrArg List.length (decode_eq_noOpcode h)
  rw [length_bytesFrom, List.length_nil] at read
  omega

theorem inPool_of_unassigned {s : State} {b : Byte} (h : s.instructionAt = .error (.unassigned b)) :
    s.pc.toNat < s.cfg.memSize := by
  by_contra beyond
  cases (instructionAt_beyond (not_lt.1 beyond)).symm.trans h

/-- The missing operand byte is the first one beyond the pool. -/
theorem end_of_missingOperand {s : State} {k : Nat} (h : s.instructionAt = .error (.missingOperand k)) :
    k ≤ 2 ∧ s.pc.toNat < s.cfg.memSize ∧ s.pc.toNat + k = s.cfg.memSize := by
  obtain ⟨read, hk⟩ := decode_eq_missingOperand h
  have inPool : s.pc.toNat < s.cfg.memSize := by
    by_contra beyond
    cases (instructionAt_beyond (not_lt.1 beyond)).symm.trans h
  rw [length_bytesFrom] at read
  omega

end Sys2Proof.Machine
end

section
/-! What an instruction can touch (10_state.md R35): the one cell it stores in, the I/O fields if it is INPUT or OUTPUT, and the
run state if it halts or faults. -/
namespace Sys2Proof.Machine

/-- The operand an instruction stores through: its dst, or the operand the pointer byte in ref's cell encodes (44_address.md
R161); `none` where it stores nothing. -/
def target : Instr → State → Option Operand
  | .move _ dst, _ => some dst
  | .add _ dst, _ => some dst
  | .sub _ dst, _ => some dst
  | .markPc dst, _ => some dst
  | .input _ dst, _ => some dst
  | .addressOf _ dst, _ => some dst
  | .addressOfIndirect _ ref, s => some (decodeOperand (s.valueOf ref))
  | .suspend, _ => none
  | .jumpIfFalse _ _, _ => none
  | .jumpRegister _, _ => none
  | .output _ _, _ => none

/-- Registers and memory are as they were, or as a store through the target in range leaves them. -/
def CellsFrame (i : Instr) (s t : State) : Prop :=
  (t.regs = s.regs ∧ t.mem = s.mem) ∨
    ∃ j v, target i s = some (.ref j) ∧ inRange s.cfg (.ref j) ∧ t.regs = (s.stored j v).regs ∧ t.mem = (s.stored j v).mem

/-- Nothing crosses the port, or INPUT takes the oldest supplied value, or OUTPUT emits an event (43_io.md R141, R142). -/
def IoFrame (i : Instr) (s t : State) : Prop :=
  (t.inputs = s.inputs ∧ t.ioLog = s.ioLog) ∨
    (∃ ch dst p v, i = .input ch dst ∧ s.inputs = v :: t.inputs ∧ t.ioLog = s.ioLog ++ [.consumed p v]) ∨
    ∃ ch src p v, i = .output ch src ∧ t.inputs = s.inputs ∧ t.ioLog = s.ioLog ++ [.emitted p v]

/-- What an instruction that takes `s` to `t` leaves alone. -/
structure Frame (i : Instr) (s t : State) : Prop where
  cfg : t.cfg = s.cfg
  cells : CellsFrame i s t
  io : IoFrame i s t
  status : i = .suspend ∨ t.status = s.status ∨ ∃ f, t.status = .faulted f

section frame
variable {i : Instr} {s t : State}

theorem frame_takeFault (i : Instr) (s : State) (a reached : Byte) (c : FaultCause) : Frame i s (s.takeFault a reached c) where
  cfg := rfl
  cells := .inl ⟨rfl, rfl⟩
  io := .inl ⟨rfl, rfl⟩
  status := .inr (.inr ⟨_, rfl⟩)

theorem frame_stored {j : Payload} (v : Byte) (hi : target i s = some (.ref j)) (hj : inRange s.cfg (.ref j)) :
    Frame i s (s.stored j v) where
  cfg := stored_cfg ..
  cells := .inr ⟨j, v, hi, hj, rfl, rfl⟩
  io := .inl ⟨stored_inputs .., stored_ioLog ..⟩
  status := .inr (.inl (stored_status ..))

theorem Frame.setFlags (h : Frame i s t) (v : Byte) : Frame i s (t.setFlags v) := ⟨h.cfg, h.cells, h.io, h.status⟩

theorem frame_setPc (i : Instr) (s : State) (a : Byte) : Frame i s (s.setPc a) :=
  ⟨rfl, .inl ⟨rfl, rfl⟩, .inl ⟨rfl, rfl⟩, .inr (.inl rfl)⟩

/-- A store and what crosses the port do not meet. -/
theorem stored_consumed (s : State) (rest : List Int) (e : IoEvent) (j : Payload) (v : Byte) :
    ((s.setInputs rest).logIo e).stored j v = ((s.stored j v).setInputs rest).logIo e := by
  unfold State.stored
  split <;> rfl

theorem addrOk_ref_iff {cfg : Config} {j : Payload} : (Operand.ref j).addrOk cfg = true ↔ inRange cfg (.ref j) :=
  inRange_ref_iff.symm

theorem inRange_second {cfg : Config} {b : Bool} {j : Payload} (h : (b && (Operand.ref j).addrOk cfg) = true) :
    inRange cfg (.ref j) :=
  addrOk_ref_iff.1 (Bool.and_eq_true_iff.1 h).2

theorem frame_of_effect (hw : i.wellFormed s.cfg = true) (h : Effect i s t) : Frame i s t := by
  cases i with
  | suspend =>
    cases h
    exact ⟨rfl, .inl ⟨rfl, rfl⟩, .inl ⟨rfl, rfl⟩, .inl rfl⟩
  | move src dst =>
    obtain ⟨j, rfl, rfl⟩ := h
    exact frame_stored _ rfl (inRange_second hw)
  | add src dst =>
    obtain ⟨j, rfl, rfl⟩ := h
    exact (frame_stored _ rfl (inRange_second hw)).setFlags _
  | sub src dst =>
    obtain ⟨j, rfl, rfl⟩ := h
    exact (frame_stored _ rfl (inRange_second hw)).setFlags _
  | jumpIfFalse flagMask addr =>
    cases h
    split
    · exact frame_setPc _ _ _
    · exact frame_setPc _ _ s.pc
  | jumpRegister addr =>
    cases h
    exact frame_setPc _ _ _
  | markPc dst =>
    obtain ⟨j, rfl, rfl⟩ := h
    exact frame_stored _ rfl (addrOk_ref_iff.1 hw)
  | input channel dst =>
    obtain ⟨j, p, v, rest, rfl, -, supplied, rfl⟩ := h
    rw [stored_consumed]
    have store := frame_stored (i := .input channel (.ref j)) (BitVec.ofInt 8 v) rfl (inRange_second hw)
    have log := congrArg (· ++ [IoEvent.consumed p v]) (stored_ioLog s j (BitVec.ofInt 8 v))
    exact ⟨store.cfg, store.cells, .inr (.inl ⟨_, _, p, v, rfl, supplied, log⟩), store.status⟩
  | output channel src =>
    obtain ⟨p, -, rfl⟩ := h
    exact ⟨rfl, .inl ⟨rfl, rfl⟩, .inr (.inr ⟨_, _, p, _, rfl, rfl, rfl⟩), .inr (.inl rfl)⟩
  | addressOf ref dst =>
    obtain ⟨i, j, rfl, rfl, rfl⟩ := h
    exact frame_stored _ rfl (inRange_second hw)
  | addressOfIndirect src ref =>
    obtain ⟨j, pointer, hj, rfl⟩ := h
    exact frame_stored _ (congrArg some pointer) hj

@[simp] theorem target_setPc (i : Instr) (s : State) (a : Byte) : target i (s.setPc a) = target i s := by
  cases i with
  | addressOfIndirect src ref => rw [target, target, valueOf_setPc]
  | _ => rfl

/-- Where the pc stands plays no part in the frame. -/
theorem Frame.of_setPc {a : Byte} (h : Frame i (s.setPc a) t) : Frame i s t := by
  refine ⟨h.cfg, ?_, h.io, h.status⟩
  obtain same | ⟨j, v, hi, hj, store⟩ := h.cells
  · exact .inl same
  · rw [target_setPc] at hi
    rw [stored_setPc] at store
    exact .inr ⟨j, v, hi, hj, store⟩

/-- Whatever an instruction answers as a next state is within its frame. -/
theorem exec_frame (h : exec i s = .next t) : Frame i s t := by
  obtain ⟨c, rfl, -⟩ | ⟨hw, effect⟩ := exec_cases h
  · exact frame_takeFault i s _ _ c
  · exact (frame_of_effect (s := s.setPc (pcAfter s.pc i)) hw effect).of_setPc

/-- A step that runs no instruction leaves registers, memory and the I/O fields alone. -/
theorem step_frame (h : step s = .next t) :
    (∃ i rest, s.instructionAt = .ok (i, rest) ∧ Frame i s t) ∨
      (t.cfg = s.cfg ∧ t.mem = s.mem ∧ t.inputs = s.inputs ∧ t.ioLog = s.ioLog) := by
  obtain ⟨i, rest, hi, hexec⟩ | ⟨-, rfl⟩ | ⟨b, -, rfl⟩ | ⟨k, -, rfl⟩ := step_cases h
  · exact .inl ⟨i, rest, hi, exec_frame hexec⟩
  all_goals exact .inr ⟨rfl, rfl, rfl, rfl⟩

end frame
end Sys2Proof.Machine
end

section
/-! Which faults an instruction can raise (60_exceptions.md R181): never the fetch's, and each with info that says what is wrong. -/
namespace Sys2Proof.Machine

/-- The cause is one an instruction raises, and its info names what it says: an index that names nothing, a value that names no
channel. -/
def CauseFits (cfg : Config) : FaultCause → Prop
  | .fetchOutOfRange _ => False
  | .literalOperand _ => True
  | .addressOutOfRange i => 8 ≤ i.toNat ∧ cfg.memSize ≤ i.toNat
  | .unsupportedChannel c => c ≠ cfg.chanCharacter ∧ c ≠ cfg.chanNumeric

/-- Every fault this part of a handler can raise fits. -/
def RaisesFitting {α : Type} (cfg : Config) (x : Except Stop α) : Prop := ∀ c, x = .error (.fault c) → CauseFits cfg c

section raises
variable {α β : Type} {cfg : Config} {s : State}

theorem raisesFitting_ok (a : α) : RaisesFitting cfg (.ok a : Except Stop α) := nofun

theorem RaisesFitting.bind {x : Except Stop α} {f : α → Except Stop β} (hx : RaisesFitting cfg x)
    (hf : ∀ a, x = .ok a → RaisesFitting cfg (f a)) : RaisesFitting cfg (x >>= f) := by
  intro c h
  obtain h | ⟨a, ha, h⟩ := bind_eq_error h
  · exact hx c h
  · exact hf a ha c h

theorem causeFits_of_not_inRange {i : Payload} (h : ¬ inRange cfg (.ref i)) : CauseFits cfg (.addressOutOfRange i) :=
  ⟨not_lt.1 (not_or.1 h).1, not_lt.1 (not_or.1 h).2⟩

theorem raisesFitting_readOp (s : State) (o : Operand) : RaisesFitting s.cfg (s.readOp o) := by
  intro c h
  by_cases hr : inRange s.cfg o
  · cases (readOp_of_inRange hr).symm.trans h
  · cases o with
    | lit n => exact absurd trivial hr
    | ref i =>
      cases (readOp_of_not_inRange hr).symm.trans h
      exact causeFits_of_not_inRange hr

theorem raisesFitting_writeOp (s : State) (slot : OperandPos) (o : Operand) (v : Byte) :
    RaisesFitting s.cfg (s.writeOp slot o v) := by
  intro c h
  cases o with
  | lit n =>
    cases (writeOp_lit s slot n v).symm.trans h
    exact trivial
  | ref i =>
    by_cases hr : inRange s.cfg (.ref i)
    · cases (writeOp_of_inRange slot v hr).symm.trans h
    · cases (writeOp_of_not_inRange slot v hr).symm.trans h
      exact causeFits_of_not_inRange hr

theorem portChannel_eq_none {c : Byte} : portChannel cfg c = none ↔ c ≠ cfg.chanCharacter ∧ c ≠ cfg.chanNumeric := by
  unfold portChannel
  split_ifs with character numeric
  · exact iff_of_false nofun fun h => h.1 character
  · exact iff_of_false nofun fun h => h.2 numeric
  · exact iff_of_true rfl ⟨character, numeric⟩

theorem raisesFitting_selectChannel (cfg : Config) (b : Byte) : RaisesFitting cfg (selectChannel cfg b) := by
  intro c h
  unfold selectChannel at h
  split at h
  · cases h
  · rename_i unnamed
    cases h
    exact portChannel_eq_none.1 unnamed

theorem raisesFitting_ioIn (p : PortChannel) : RaisesFitting cfg (s.ioIn p) := fun _ h => absurd h ioIn_ne_fault

theorem raisesFitting_referenceIndex (pos : OperandPos) (o : Operand) : RaisesFitting cfg (referenceIndex pos o) := by
  intro c h
  cases o with
  | lit n =>
    cases h
    exact trivial
  | ref i => cases h

theorem raisesFitting_arithmetic (alu : Byte → Byte → AluResult) (src dst : Operand) (s : State) :
    RaisesFitting s.cfg (arithmetic alu src dst s) :=
  (raisesFitting_readOp s src).bind fun _ _ => (raisesFitting_readOp s dst).bind fun _ _ =>
    (raisesFitting_writeOp s .two dst _).bind fun _ _ => raisesFitting_ok _

theorem cfg_of_ioIn {p : PortChannel} {r : Int × State} (h : s.ioIn p = .ok r) : r.2.cfg = s.cfg := by
  obtain ⟨rest, -, taken⟩ := ioIn_eq_ok h
  rw [taken]
  rfl

theorem raisesFitting_handler (i : Instr) (s : State) : RaisesFitting s.cfg (handler i s) := by
  cases i with
  | suspend => exact raisesFitting_ok _
  | move src dst => exact (raisesFitting_readOp s src).bind fun _ _ => raisesFitting_writeOp s .two dst _
  | add src dst => exact raisesFitting_arithmetic aluAdd src dst s
  | sub src dst => exact raisesFitting_arithmetic aluSub src dst s
  | jumpIfFalse flagMask addr =>
    exact (raisesFitting_readOp s flagMask).bind fun _ _ => (raisesFitting_readOp s addr).bind fun _ _ => raisesFitting_ok _
  | jumpRegister addr => exact (raisesFitting_readOp s addr).bind fun _ _ => raisesFitting_ok _
  | markPc dst => exact raisesFitting_writeOp s .one dst _
  | input channel dst =>
    exact (raisesFitting_readOp s channel).bind fun _ _ => (raisesFitting_selectChannel s.cfg _).bind fun _ _ =>
      (raisesFitting_ioIn _).bind fun r hr => cfg_of_ioIn hr ▸ raisesFitting_writeOp r.2 .two dst _
  | output channel src =>
    exact (raisesFitting_readOp s channel).bind fun _ _ => (raisesFitting_selectChannel s.cfg _).bind fun _ _ =>
      (raisesFitting_readOp s src).bind fun _ _ => raisesFitting_ok _
  | addressOf ref dst =>
    exact (raisesFitting_referenceIndex .one ref).bind fun _ _ => raisesFitting_writeOp s .two dst _
  | addressOfIndirect src ref =>
    exact (raisesFitting_readOp s src).bind fun _ _ => (raisesFitting_readOp s ref).bind fun _ _ =>
      raisesFitting_writeOp s .indirect _ _

theorem causeFits_of_checkOperand {pos : OperandPos} {kind : OperandKind} {o : Operand} {c : FaultCause}
    (h : checkOperand cfg pos kind o = some c) : CauseFits cfg c := by
  cases o with
  | lit n =>
    cases kind with
    | expr => cases (checkOperand_expr_lit cfg pos n).symm.trans h
    | addr =>
      cases (checkOperand_addr_lit cfg pos n).symm.trans h
      exact trivial
    | addrOfReference =>
      cases (checkOperand_addrOfReference_lit cfg pos n).symm.trans h
      exact trivial
  | ref i =>
    by_cases hr : inRange cfg (.ref i)
    · cases (checkOperand_ref_ok pos kind hr).symm.trans h
    · cases (checkOperand_ref_bad pos kind hr).symm.trans h
      exact causeFits_of_not_inRange hr

theorem causeFits_of_checkOperands {c : FaultCause} :
    ∀ {os : List (OperandPos × OperandKind × Operand)}, checkOperands cfg os = some c → CauseFits cfg c
  | [], h => nomatch h
  | (pos, kind, o) :: rest, h => by
    unfold checkOperands at h
    split at h
    · rename_i first
      exact causeFits_of_checkOperand (first.trans h)
    · exact causeFits_of_checkOperands h

end raises
end Sys2Proof.Machine
end

section
/-! The invariant (10_state.md R24, R26, R29): each of its parts is kept by every step. -/
namespace Sys2Proof.Machine

theorem step_cfg {s t : State} (h : step s = .next t) : t.cfg = s.cfg := by
  obtain ⟨i, rest, -, frame⟩ | ⟨cfg, -⟩ := step_frame h
  · exact frame.cfg
  · exact cfg

theorem stored_mem_cases (s : State) (j : Payload) (v : Byte) :
    (s.stored j v).mem = s.mem ∨ (8 ≤ j.toNat ∧ (s.stored j v).mem = s.mem.write j.toNat v) := by
  obtain register | memory := Nat.lt_or_ge j.toNat 8
  · exact .inl (by rw [stored_reg s v register])
  · exact .inr ⟨memory, by rw [stored_mem s v memory]⟩

/-- A step writes at most one byte of memory, in the pool and beyond the register window (20_memory.md R43). -/
theorem step_mem_cases {s t : State} (h : step s = .next t) :
    t.mem = s.mem ∨ ∃ a v, 8 ≤ a ∧ a < s.cfg.memSize ∧ t.mem = s.mem.write a v := by
  obtain ⟨i, rest, -, frame⟩ | ⟨-, mem, -⟩ := step_frame h
  · obtain ⟨-, same⟩ | ⟨j, v, -, hj, -, store⟩ := frame.cells
    · exact .inl same
    · obtain same | ⟨memory, written⟩ := stored_mem_cases s j v
      · exact .inl (store.trans same)
      · exact .inr ⟨_, v, memory, hj.resolve_left memory.not_gt, store.trans written⟩
  · exact .inl mem

theorem effect_flags_cases {i : Instr} {s t : State} (h : Effect i s t) :
    t.flags = s.flags ∨ ∃ r, t.flags = flagsOf s.cfg r := by
  cases i with
  | add src dst => exact .inr ⟨_, add_effect_flags h⟩
  | sub src dst => exact .inr ⟨_, sub_effect_flags h⟩
  | _ => exact .inl (effect_flags (fun _ _ => Instr.noConfusion) (fun _ _ => Instr.noConfusion) h)

theorem step_flags_cases {s t : State} (h : step s = .next t) : t.flags = s.flags ∨ ∃ r, t.flags = flagsOf s.cfg r := by
  obtain ⟨i, rest, -, hexec⟩ | ⟨-, rfl⟩ | ⟨b, -, rfl⟩ | ⟨k, -, rfl⟩ := step_cases h
  · obtain ⟨c, rfl, -⟩ | ⟨-, effect⟩ := exec_cases hexec
    · exact .inl rfl
    · exact effect_flags_cases (s := s.setPc (pcAfter s.pc i)) effect
  all_goals exact .inl rfl

theorem flagBit_getLsbD_of_ne {k b : Fin 8} (h : k ≠ b) : (flagBit b).getLsbD k = false := by
  revert k b
  decide

/-- The flag write names two bits only (41_move_arith.md R102). -/
theorem flagsOf_reserved {cfg : Config} {k : Fin 8} (r : AluResult) (zero : k ≠ cfg.flagZeroBit)
    (carry : k ≠ cfg.flagCarryBit) :
    (flagsOf cfg r).getLsbD k = false := by
  rw [flagsOf, BitVec.getLsbD_or, Bool.or_eq_false_iff]
  constructor
  · split
    · exact flagBit_getLsbD_of_ne zero
    · exact BitVec.getLsbD_zero
  · split
    · exact flagBit_getLsbD_of_ne carry
    · exact BitVec.getLsbD_zero

theorem add_ofNat_toNat {a : Byte} {k : Nat} (h : a.toNat + k < 256) : (a + BitVec.ofNat 8 k).toNat = a.toNat + k := by
  rw [BitVec.toNat_add, BitVec.toNat_ofNat, Nat.add_mod_mod, Nat.mod_eq_of_lt h]

theorem pcAfter_toNat {a : Byte} {i : Instr} (h : a.toNat + i.length < 256) : (pcAfter a i).toNat = a.toNat + i.length :=
  add_ofNat_toNat h

/-- The fault record of an instruction agrees with the pc, which stands past its bytes (60_exceptions.md R182). -/
theorem statusOk_takeFault {s : State} {a reached : Byte} {c : FaultCause} (fits : CauseFits s.cfg c)
    (past : a.toNat < reached.toNat) (inPool : reached.toNat ≤ s.cfg.memSize) : (s.takeFault a reached c).statusOk := by
  refine ⟨rfl, ?_⟩
  cases c with
  | fetchOutOfRange i => exact fits.elim
  | literalOperand pos => exact ⟨past, inPool⟩
  | addressOutOfRange i => exact ⟨fits.1, fits.2, past, inPool⟩
  | unsupportedChannel b => exact ⟨fits.1, fits.2, past, inPool⟩

theorem exec_statusOk {i : Instr} {s t : State} (running : s.status = .running) (small : s.cfg.memSize ≤ 128)
    (fits : s.pc.toNat + i.length ≤ s.cfg.memSize) (h : exec i s = .next t) : t.statusOk := by
  have hpc : (pcAfter s.pc i).toNat = s.pc.toNat + i.length := pcAfter_toNat (by omega)
  have hlen := length_pos i
  obtain ⟨c, rfl, raised⟩ | ⟨hw, effect⟩ := exec_cases h
  · have cause : CauseFits s.cfg c := by
      obtain check | ⟨-, body⟩ := raised
      · exact causeFits_of_checkOperands check
      · exact raisesFitting_handler i (s.setPc (pcAfter s.pc i)) c body
    exact statusOk_takeFault cause (by omega) (by omega)
  · obtain rfl | same | ⟨f, faulted⟩ := (frame_of_effect (s := s.setPc (pcAfter s.pc i)) hw effect).status
    · cases effect
      exact ⟨by rw [State.halt_pc, State.setPc_pc]; omega, by rw [State.halt_pc, State.setPc_pc]; exact hpc.trans_le fits⟩
    · rw [State.statusOk, same, State.setPc_status, running]
      trivial
    · exact absurd faulted (effect_unfaulted (s := s.setPc (pcAfter s.pc i)) running effect f)

theorem step_statusOk {s t : State} (small : s.cfg.memSize ≤ 128) (h : step s = .next t) : t.statusOk := by
  obtain ⟨i, rest, hi, hexec⟩ | ⟨hi, rfl⟩ | ⟨b, hi, rfl⟩ | ⟨k, hi, rfl⟩ := step_cases h
  · exact exec_statusOk (running_of_step h) small (fits_of_instructionAt hi) hexec
  · exact ⟨rfl, rfl, beyond_of_noOpcode hi⟩
  · have inPool := inPool_of_unassigned hi
    have hpc : (s.pc + 1#8).toNat = s.pc.toNat + 1 := add_ofNat_toNat (by omega)
    exact ⟨hpc ▸ Nat.le_add_left .., hpc.trans_le inPool⟩
  · obtain ⟨hk, inPool, poolEnd⟩ := end_of_missingOperand hi
    have hpc : (s.pc + BitVec.ofNat 8 k).toNat = s.pc.toNat + k := add_ofNat_toNat (by omega)
    exact ⟨rfl, rfl, (hpc.trans poolEnd).ge⟩

/-- Settles O47: the step keeps the parameters, writes at most one byte of the pool, writes `flags` only as R102 says, and
leaves the run state in agreement with the pc. -/
theorem everyStepKeepsTheInvariant : Obligations.EveryStepKeepsTheInvariant := by
  intro s t inv h
  have cfg := step_cfg h
  refine ⟨cfg ▸ inv.cfgValid, ?_, ?_, ?_, step_statusOk (memSize_le_of_valid inv.cfgValid) h⟩
  · obtain same | ⟨a, v, -, -, written⟩ := step_mem_cases h
    · exact same ▸ inv.memWf
    · exact written ▸ Memory.wf_write a v inv.memWf
  · intro c hc
    rw [cfg]
    obtain same | ⟨a, v, -, ha, written⟩ := step_mem_cases h
    · exact inv.memInPool c (same ▸ hc)
    · obtain old | new := Memory.mem_write (written ▸ hc)
      · exact inv.memInPool c old
      · exact new ▸ ha
  · intro k zero carry
    rw [cfg] at zero carry
    obtain same | ⟨r, written⟩ := step_flags_cases h
    · exact same ▸ inv.flagsReserved k zero carry
    · exact written ▸ flagsOf_reserved r zero carry

end Sys2Proof.Machine
end

section
/-! The frames of the instructions and of a step (10_state.md R35, 20_memory.md R43, R50, 43_io.md R142, R145). -/
namespace Sys2Proof.Machine

section cells
variable {i : Instr} {s t : State} {d : Operand}

/-- A register the target does not locate keeps its contents. -/
theorem CellsFrame.reg (h : CellsFrame i s t) (hd : target i s = some d) (r : Fin 8)
    (other : ∀ j, d = .ref j → locate s.cfg j ≠ some (.reg r)) : t.regs[r] = s.regs[r] := by
  obtain ⟨same, -⟩ | ⟨j, v, hj, -, store, -⟩ := h
  · rw [same]
  · have elsewhere := other j (Option.some.inj (hd.symm.trans hj))
    obtain register | memory := Nat.lt_or_ge j.toNat 8
    · have ne : j.toNat ≠ r.val := fun e => elsewhere (by rw [locate_reg register]; simp only [e])
      rw [store, stored_reg s v register]
      exact Vector.getElem_set_ne register r.isLt ne
    · rw [store, stored_mem s v memory]

/-- A memory byte the target does not locate reads as before. -/
theorem CellsFrame.read (h : CellsFrame i s t) (hd : target i s = some d) (b : Nat)
    (other : ∀ j, d = .ref j → locate s.cfg j ≠ some (.mem b)) : t.mem.read b = s.mem.read b := by
  obtain ⟨-, same⟩ | ⟨j, v, hj, inPool, -, store⟩ := h
  · rw [same]
  · have elsewhere := other j (Option.some.inj (hd.symm.trans hj))
    rw [store]
    obtain same | ⟨memory, written⟩ := stored_mem_cases s j v
    · rw [same]
    · have ne : b ≠ j.toNat := fun e => elsewhere (by rw [locate_mem memory (inPool.resolve_left memory.not_gt), e])
      rw [written, Memory.read_write_ne v ne]

/-- The byte the target locates is the only one that can read otherwise. -/
theorem CellsFrame.read_ne (h : CellsFrame i s t) (hd : target i s = some d) {j : Payload} {a : Nat} (hj : d = .ref j)
    (ha : locate s.cfg j = some (.mem a)) (b : Nat) (ne : b ≠ a) : t.mem.read b = s.mem.read b :=
  h.read hd b fun j' hj' located => by
    cases hj.symm.trans hj'
    cases ha.symm.trans located
    exact ne rfl

theorem IoFrame.unchanged (h : IoFrame i s t) (notInput : ∀ ch dst, i ≠ .input ch dst)
    (notOutput : ∀ ch src, i ≠ .output ch src) : t.inputs = s.inputs ∧ t.ioLog = s.ioLog := by
  obtain same | ⟨ch, dst, p, v, hi, -⟩ | ⟨ch, src, p, v, hi, -⟩ := h
  · exact same
  · exact absurd hi (notInput ch dst)
  · exact absurd hi (notOutput ch src)

end cells

/-- Settles O41: the six store through `d` only, and none of them halts or emits. -/
theorem storingInstructionsChangeOnlyTheirDestination : Obligations.StoringInstructionsChangeOnlyTheirDestination := by
  intro i o d s t hi h
  have frame := exec_frame h
  have hd : target i s = some d := by obtain rfl | rfl | rfl | rfl | rfl | rfl := hi <;> rfl
  have isAdd : ∀ src dst, i = .add src dst → i = .add o d := by rintro src dst rfl; simpa using hi
  have isSub : ∀ src dst, i = .sub src dst → i = .sub o d := by rintro src dst rfl; simpa using hi
  have isInput : ∀ ch dst, i = .input ch dst → i = .input o d := by rintro ch dst rfl; simpa using hi
  have notOutput : ∀ ch src, i ≠ .output ch src := by rintro ch src rfl; simp at hi
  have notSuspend : i ≠ .suspend := by rintro rfl; simp at hi
  refine ⟨frame.cells.reg hd, fun j a hj ha => frame.cells.read_ne hd hj ha,
    fun other b => frame.cells.read hd b fun j => other j b, fun notAdd notSub => ?_, fun notInput => ?_, frame.cfg,
    frame.status.resolve_left notSuspend⟩
  · exact exec_flags (fun src dst hadd => notAdd (isAdd src dst hadd)) (fun src dst hsub => notSub (isSub src dst hsub)) h
  · exact frame.io.unchanged (fun ch dst hin => notInput (isInput ch dst hin)) notOutput

/-- Settles O42: the one cell it stores in is the one its pointer byte, read before the store, names. -/
theorem indirectStoreChangesOnlyThePointedCell : Obligations.IndirectStoreChangesOnlyThePointedCell := by
  intro src ref s t h
  have frame := exec_frame h
  obtain ⟨inputs, ioLog⟩ := frame.io.unchanged (fun _ _ => Instr.noConfusion) (fun _ _ => Instr.noConfusion)
  exact ⟨frame.cells.reg rfl, fun j a hj ha => frame.cells.read_ne rfl hj ha,
    fun other b => frame.cells.read rfl b fun j => other j b,
    exec_flags (fun _ _ => Instr.noConfusion) (fun _ _ => Instr.noConfusion) h, inputs, ioLog, frame.cfg,
    frame.status.resolve_left Instr.noConfusion⟩

/-- Settles O43: the four have no target. -/
theorem otherInstructionsStoreNothing : Obligations.OtherInstructionsStoreNothing := by
  intro i s t hi h
  have frame := exec_frame h
  have noTarget : target i s = none := by obtain rfl | ⟨m, a, rfl⟩ | ⟨a, rfl⟩ | ⟨c, a, rfl⟩ := hi <;> rfl
  have notInput : ∀ ch dst, i ≠ .input ch dst := by rintro ch dst rfl; simp at hi
  have notAdd : ∀ src dst, i ≠ .add src dst := by rintro src dst rfl; simp at hi
  have notSub : ∀ src dst, i ≠ .sub src dst := by rintro src dst rfl; simp at hi
  obtain ⟨regs, mem⟩ : t.regs = s.regs ∧ t.mem = s.mem :=
    frame.cells.resolve_right fun ⟨j, v, hj, _⟩ => nomatch noTarget.symm.trans hj
  have inputs : t.inputs = s.inputs := by
    obtain ⟨same, -⟩ | ⟨ch, dst, p, v, hin, -⟩ | ⟨ch, src, p, v, -, same, -⟩ := frame.io
    · exact same
    · exact absurd hin (notInput ch dst)
    · exact same
  exact ⟨regs, fun b => by rw [mem], exec_flags notAdd notSub h, inputs, frame.cfg,
    fun notOutput => (frame.io.unchanged notInput notOutput).2, frame.status.resolve_left⟩

/-- Settles O45: the byte a step writes has an index from 8 on, since a lower one names a register. -/
theorem noStepWritesTheFirstEightBytes : Obligations.NoStepWritesTheFirstEightBytes := by
  intro s t h a ha
  obtain same | ⟨w, v, hw, -, written⟩ := step_mem_cases h
  · rw [same]
  · rw [written, Memory.read_write_ne v (ha.trans_le hw).ne]

/-- Settles O46: a step runs one instruction, and INPUT and OUTPUT are the two that touch the I/O fields. -/
theorem onlyInputAndOutputCrossThePort : Obligations.OnlyInputAndOutputCrossThePort := by
  intro s t h
  refine ⟨step_cfg h, ?_⟩
  obtain ⟨i, rest, hi, frame⟩ | ⟨-, -, unchanged⟩ := step_frame h
  · obtain unchanged | ⟨ch, dst, p, v, rfl, taken⟩ | ⟨ch, src, p, v, rfl, emitted⟩ := frame.io
    · exact .inl unchanged
    · exact .inr (.inl ⟨ch, dst, rest, p, v, hi, taken⟩)
    · exact .inr (.inr ⟨ch, src, rest, p, v, hi, emitted⟩)
  · exact .inl unchanged

end Sys2Proof.Machine
end

section
/-! Operand bytes from numbers (30_encoding.md R63, R64), and the default opcode map (R67, R68). -/
namespace Sys2Proof.Machine

theorem decodeOperand_of_double_add_one {b : Byte} {n : Payload} (h : b.toNat = 2 * n.toNat + 1) :
    decodeOperand b = .lit n := by
  have payload : b.extractLsb' 1 7 = n := BitVec.eq_of_toNat_eq (by rw [payload_toNat]; omega)
  rw [decodeOperand_of_odd (by omega), payload]

theorem decodeOperand_of_double {b : Byte} {i : Payload} (h : b.toNat = 2 * i.toNat) : decodeOperand b = .ref i := by
  have payload : b.extractLsb' 1 7 = i := BitVec.eq_of_toNat_eq (by rw [payload_toNat]; omega)
  rw [decodeOperand_of_even (by omega), payload]

/-- Settles O11: a value up to 127 fits in the payload, so neither encoding wraps. -/
theorem operandEncodingsRoundTrip : Obligations.OperandEncodingsRoundTrip := by
  refine ⟨fun n hn => ?_, fun n hn => if_neg hn.not_ge, fun i hi => ?_, encodeOperand_decodeOperand⟩
  · have payload : (BitVec.ofNat 7 n).toNat = n := Nat.mod_eq_of_lt (by omega)
    have byte : (BitVec.ofNat 8 (2 * n + 1)).toNat = 2 * n + 1 := Nat.mod_eq_of_lt (by omega)
    exact ⟨_, if_pos hn, byte, decodeOperand_of_double_add_one (by rw [byte, payload])⟩
  · have payload : (BitVec.ofNat 7 i).toNat = i := Nat.mod_eq_of_lt (by omega)
    have byte : (BitVec.ofNat 8 (2 * i)).toNat = 2 * i := Nat.mod_eq_of_lt (by omega)
    exact ⟨_, if_pos hi, byte, decodeOperand_of_double (by rw [byte, payload])⟩

theorem standard_value_lt (m : Mnemonic) : (OpcodeMap.standard.value m).toNat < 0x0B := by cases m <;> decide

/-- Every byte below 0x0B is the row index of a mnemonic (30_encoding.md R67). -/
theorem standard_value_surjective (k : Fin 11) : ∃ m, OpcodeMap.standard.value m = BitVec.ofNat 8 k := by
  refine ⟨Mnemonic.all[k], ?_⟩
  revert k
  decide

/-- Settles O14: the default map's values are the eleven row indices. -/
theorem defaultUnassignedBytes : Obligations.DefaultUnassignedBytes := by
  intro b
  rw [decodeMnemonic_eq_none]
  constructor
  · intro unassigned
    by_contra below
    obtain ⟨m, hm⟩ := standard_value_surjective ⟨b.toNat, not_le.1 below⟩
    exact unassigned m (hm.trans (BitVec.ofNat_toNat ..))
  · rintro high m rfl
    exact (standard_value_lt m).not_ge high

/-- Settles O15: each word is the encoding of the instruction it stands for, and 0x0B is no mnemonic's byte. -/
theorem writtenWordsDecode : Obligations.WrittenWordsDecode := by
  have word (i : Instr) : decode Config.standard (encode Config.standard i ++ []) = .ok (i, []) :=
    decodeOfEncodeIsTheInstruction Config.standard i [] (by decide)
  refine ⟨word .suspend, word (.move (.lit 5#7) (.ref 1#7)), word (.sub (.lit 5#7) (.ref 0#7)), word (.jumpRegister (.ref 5#7)),
    word (.output (.lit 1#7) (.ref 4#7)), word (.addressOfIndirect (.lit 42#7) (.ref 3#7)), decode_of_unassigned [] ?_⟩
  exact decodeMnemonic_eq_none.1 ((defaultUnassignedBytes 0x0B#8).2 le_rfl)

end Sys2Proof.Machine
end

section
/-! From the bytes in the pool to the instruction that runs (40_dispatch.md R81, R87), and the fetch faults. -/
namespace Sys2Proof.Machine

/-- Settles O16: `decode` of the three bytes at `pc` is what the loop dispatches on. -/
theorem stepRunsTheDecodedInstruction : Obligations.StepRunsTheDecodedInstruction :=
  fun _ _ _ running hi => step_of_instructionAt running hi

/-- Bytes that lie in the pool from `a` on are the first ones the fetch reads there. -/
theorem bytesFrom_starts_with {s : State} {a n : Nat} {bs : List Byte} (len : bs.length ≤ n)
    (inPool : a + bs.length ≤ s.cfg.memSize)
    (held : ∀ k, k < bs.length → bs[k]? = some (s.mem.read (a + k))) : bs <+: s.bytesFrom a n := by
  rw [List.prefix_iff_getElem?]
  intro k hk
  rw [getElem?_bytesFrom s n a k (by omega) (by omega), ← held k hk, List.getElem?_eq_getElem hk]

/-- Settles O17: the fetch reads the encoding, whatever follows it, and the encoding decodes to the instruction. -/
theorem encodedInstructionInMemoryRuns : Obligations.EncodedInstructionInMemoryRuns := by
  intro s i valid running fits held
  rw [← length_encode s.cfg] at fits held
  have len : (encode s.cfg i).length ≤ 3 := (length_encode s.cfg i).trans_le (length_le_three i)
  obtain ⟨rest, read⟩ := bytesFrom_starts_with len fits held
  have hi : s.instructionAt = .ok (i, rest) := by
    rw [State.instructionAt, ← read, decodeOfEncodeIsTheInstruction s.cfg i rest valid]
  exact step_of_instructionAt running hi

/-- With `k` bytes left in the pool, fewer than the mnemonic at `pc` asks for, operand byte `k` is the one that is missing. -/
theorem instructionAt_cut_off {s : State} {m : Mnemonic} {k : Nat} (valid : s.cfg.valid = true)
    (opcode : s.mem.read s.pc.toNat = s.cfg.opcodes.value m) (first : 1 ≤ k) (operand : k ≤ m.arity)
    (poolEnd : s.pc.toNat + k = s.cfg.memSize) : s.instructionAt = .error (.missingOperand k) := by
  have left : (s.bytesFrom (s.pc.toNat + 1) 2).length + 1 = k := by
    rw [length_bytesFrom]
    have := arity_le_two m
    omega
  rw [State.instructionAt, bytesFrom_succ s 2 (by omega), opcode, decode_value_cons valid, decodeOperands_of_short (by omega),
    left]

/-- Settles O19: beyond the pool the opcode byte is missing; at its end the operand byte that would lie at MEMSIZE. -/
theorem fetchBeyondThePoolFaults : Obligations.FetchBeyondThePoolFaults := by
  intro s running
  refine ⟨step_beyond running, fun m k valid inPool opcode first operand poolEnd => ?_⟩
  have missing : s.pc + BitVec.ofNat 8 k = BitVec.ofNat 8 s.cfg.memSize := by
    rw [← poolEnd, BitVec.ofNat_add, BitVec.ofNat_toNat, BitVec.setWidth_eq]
  rw [step_running running, runStep, instructionAt_cut_off valid opcode first operand poolEnd]
  simp only [← missing]
  rfl

end Sys2Proof.Machine
end

section
/-! A read after a store, through an operand and through the fetch (20_memory.md R51, R52). -/
namespace Sys2Proof.Machine

theorem valueOf_stored_self {s : State} (i : Payload) (v : Byte) (wf : s.mem.wf = true) : (s.stored i v).valueOf (.ref i) = v := by
  obtain register | memory := Nat.lt_or_ge i.toNat 8
  · rw [stored_reg s v register, valueOf_reg _ register]
    exact Vector.getElem_set_self register
  · rw [stored_mem s v memory, valueOf_mem _ memory]
    exact Memory.read_write_self _ v wf

theorem wf_stored {s : State} (i : Payload) (v : Byte) (wf : s.mem.wf = true) : (s.stored i v).mem.wf = true := by
  obtain same | ⟨-, written⟩ := stored_mem_cases s i v
  · exact same ▸ wf
  · exact written ▸ Memory.wf_write _ v wf

theorem valueOf_stored_ne (s : State) {i j : Payload} (v : Byte) (ne : j ≠ i) :
    (s.stored i v).valueOf (.ref j) = s.valueOf (.ref j) := by
  have index : j.toNat ≠ i.toNat := fun e => ne (BitVec.eq_of_toNat_eq e)
  obtain register | memory := Nat.lt_or_ge j.toNat 8
  · rw [valueOf_reg _ register, valueOf_reg _ register]
    obtain hi | hi := Nat.lt_or_ge i.toNat 8
    · rw [stored_reg s v hi]
      exact Vector.getElem_set_ne hi register index.symm
    · rw [stored_mem s v hi]
  · rw [valueOf_mem _ memory, valueOf_mem _ memory]
    obtain same | ⟨-, written⟩ := stored_mem_cases s i v
    · rw [same]
    · rw [written, Memory.read_write_ne v index]

/-- Settles O50: both halves are the laws of the register file below 8 and of memory from 8 on. -/
theorem storeThenLoadReturnsTheValue : Obligations.StoreThenLoadReturnsTheValue :=
  fun s i v wf => ⟨valueOf_stored_self i v wf, fun _ ne => valueOf_stored_ne s v ne⟩

/-- The fetch depends on MEMSIZE and on the bytes from its address on. -/
theorem bytesFrom_congr {s t : State} (cfg : t.cfg = s.cfg) :
    ∀ n a : Nat, (∀ b, a ≤ b → t.mem.read b = s.mem.read b) → t.bytesFrom a n = s.bytesFrom a n
  | 0, _, _ => rfl
  | n + 1, a, same => by
    rw [State.bytesFrom, State.bytesFrom, cfg, same a le_rfl,
      bytesFrom_congr cfg n (a + 1) fun b hb => same b (Nat.le_of_succ_le hb)]

/-- Settles O51: the byte stored is the first the fetch reads there, and no other byte it reads has changed. -/
theorem fetchSeesStores : Obligations.FetchSeesStores := by
  intro s i v wf
  refine ⟨fun memory inPool n => ?_, fun register a n => ?_⟩
  · have stored := stored_mem s v memory
    have first : (s.stored i v).mem.read i.toNat = v := by
      rw [stored]
      exact Memory.read_write_self _ v wf
    have later : ∀ b, i.toNat + 1 ≤ b → (s.stored i v).mem.read b = s.mem.read b := fun b hb => by
      rw [stored]
      exact Memory.read_write_ne v (by omega) _
    rw [bytesFrom_succ _ n (by rwa [stored_cfg]), first, bytesFrom_congr (stored_cfg s i v) n _ later]
  · refine bytesFrom_congr (stored_cfg s i v) n a fun b _ => ?_
    rw [stored_reg s v register]

end Sys2Proof.Machine
end

section
/-! The instructions that store a value and go on (41_move_arith.md R103, 42_control.md R123, 44_address.md R160 to R162), and the
two jumps (42_control.md R121, R122). -/
namespace Sys2Proof.Machine

section stores
variable {i : Instr} {s : State} {src : Operand} {j k : Payload} {v : Byte}

/-- An accepted instruction whose handler stores one value does that and goes on past its bytes. -/
theorem exec_of_handler_stored (accepted : i.wellFormed s.cfg = true)
    (stores : handler i (s.setPc (pcAfter s.pc i)) = .ok ((s.setPc (pcAfter s.pc i)).stored j v)) :
    exec i s = .next { s.stored j v with pc := pcAfter s.pc i } := by
  rw [exec_of_handler accepted stores, stored_setPc]
  rfl

theorem handler_move (hsrc : inRange s.cfg src) (hdst : inRange s.cfg (.ref j)) :
    handler (.move src (.ref j)) s = .ok (s.stored j (s.valueOf src)) := by
  rw [handler, readOp_of_inRange hsrc, ok_bind, writeOp_of_inRange .two _ hdst]

theorem handler_markPc (hdst : inRange s.cfg (.ref j)) : handler (.markPc (.ref j)) s = .ok (s.stored j s.pc) := by
  rw [handler, writeOp_of_inRange .one _ hdst]

theorem encodeOperand_ref (k : Payload) : encodeOperand (.ref k) = BitVec.ofNat 8 (2 * k.toNat) := by
  have byte : (BitVec.ofNat 8 (2 * k.toNat)).toNat = 2 * k.toNat := Nat.mod_eq_of_lt (by have := k.isLt; omega)
  rw [← decodeOperand_of_double byte, encodeOperand_decodeOperand]

/-- The contents of ref are not read (R160). -/
theorem handler_addressOf (hdst : inRange s.cfg (.ref j)) :
    handler (.addressOf (.ref k) (.ref j)) s = .ok (s.stored j (BitVec.ofNat 8 (2 * k.toNat))) := by
  rw [handler, referenceIndex, ok_bind, writeOp_of_inRange .two _ hdst, encodeOperand_ref]

/-- What becomes of the store is up to the pointer byte (R161). -/
theorem handler_addressOfIndirect {ref : Operand} (hsrc : inRange s.cfg src) (href : inRange s.cfg ref) :
    handler (.addressOfIndirect src ref) s = s.writeOp .indirect (decodeOperand (s.valueOf ref)) (s.valueOf src) := by
  rw [handler, readOp_of_inRange hsrc, readOp_of_inRange href, ok_bind, ok_bind]

end stores

/-- Settles O29: the handler stores the value it read. -/
theorem moveStoresTheSource : Obligations.MoveStoresTheSource := by
  intro s src i hsrc hdst
  refine exec_of_handler_stored (wellFormed_src_dst hsrc hdst) ?_
  rw [handler_move, valueOf_setPc]
  · exact hsrc
  · exact hdst

/-- Settles O34: the handler runs with `pc` past the instruction, and stores that. -/
theorem markPcStoresTheNextAddress : Obligations.MarkPcStoresTheNextAddress :=
  fun s _ hdst => exec_of_handler_stored (addrOk_ref_iff.2 hdst) (handler_markPc (s := s.setPc _) hdst)

/-- Settles O38: the pointer byte of an index is twice the index, which a byte holds. -/
theorem addressOfStoresThePointerByte : Obligations.AddressOfStoresThePointerByte :=
  fun s _ _ href hdst => exec_of_handler_stored
    (Bool.and_eq_true_iff.2 ⟨addrOk_ref_iff.2 href, addrOk_ref_iff.2 hdst⟩) (handler_addressOf (s := s.setPc _) hdst)

/-- Settles O39: an even pointer byte decodes to the reference it stores through. -/
theorem addressOfIndirectStoresThroughThePointer : Obligations.AddressOfIndirectStoresThroughThePointer := by
  intro s src i j hsrc href pointer hj
  refine exec_of_handler_stored (wellFormed_src_dst hsrc href) ?_
  rw [handler_addressOfIndirect, valueOf_setPc, valueOf_setPc, decodeOperand_of_double pointer, writeOp_of_inRange]
  · exact hj
  · exact hsrc
  · exact href

/-- Settles O40: ADDRESS-OF leaves twice `x`'s index in the cell `p`, so ADDRESS-OF-INDIRECT stores into `x`. -/
theorem pointerIdiomStoresIntoTheCell : Obligations.PointerIdiomStoresIntoTheCell := by
  intro s t u x p v inv hx hp hv first second
  have pointed : t = (s.stored p (BitVec.ofNat 8 (2 * x.toNat))).setPc (s.pc + 3#8) :=
    Host.Outcome.next.inj (first.symm.trans (addressOfStoresThePointerByte s x p hx hp))
  have cfg : t.cfg = s.cfg := (exec_frame first).cfg
  have wf : t.mem.wf = true := pointed ▸ wf_stored p _ inv.memWf
  have pointer : (t.valueOf (.ref p)).toNat = 2 * x.toNat := by
    rw [pointed, valueOf_setPc, valueOf_stored_self p _ inv.memWf]
    exact Nat.mod_eq_of_lt (by have := x.isLt; omega)
  have written : u = (t.stored x (t.valueOf v)).setPc (t.pc + 3#8) := Host.Outcome.next.inj
    (second.symm.trans (addressOfIndirectStoresThroughThePointer t v p x (cfg ▸ hv) (cfg ▸ hp) pointer (cfg ▸ hx)))
  constructor
  · rw [written, valueOf_setPc, valueOf_stored_self x _ wf]
  · rw [written, State.setPc_status, stored_status, pointed, State.setPc_status, stored_status]

/-- No bit is set in both (42_control.md R121). -/
theorem and_eq_zero_iff {flags mask : Byte} :
    flags &&& mask = 0#8 ↔ ∀ k : Fin 8, mask.getLsbD k = true → flags.getLsbD k = false := by
  constructor
  · intro h k hk
    have bit := congrArg (BitVec.getLsbD · k) h
    rwa [BitVec.getLsbD_and, hk, Bool.and_true, BitVec.getLsbD_zero] at bit
  · intro h
    refine BitVec.eq_of_getLsbD_eq fun k hk => ?_
    rw [BitVec.getLsbD_and, BitVec.getLsbD_zero, Bool.and_eq_false_iff, or_iff_not_imp_right, Bool.not_eq_false]
    exact h ⟨k, hk⟩

theorem exec_jumpIfFalse_not_taken {s : State} {m : Operand} {addr : Payload} (hm : inRange s.cfg m)
    (haddr : inRange s.cfg (.ref addr)) (set : s.flags &&& s.valueOf m ≠ 0#8) :
    exec (.jumpIfFalse m (.ref addr)) s = .next (s.setPc (s.pc + 3#8)) := by
  have notTaken : ¬ flagsClear s.flags (s.valueOf m) = true := fun clear => set (of_decide_eq_true clear)
  refine exec_of_handler (wellFormed_src_dst hm haddr) ?_
  rw [handler_jumpIfFalse, valueOf_setPc, State.setPc_flags, if_neg notTaken]
  · rfl
  · exact hm
  · exact haddr

/-- Settles O32: the test is on `flags &&& mask`, which is 0 exactly when no named bit is set. -/
theorem jumpIfFalseTestsTheNamedFlags : Obligations.JumpIfFalseTestsTheNamedFlags := by
  intro s m i hm haddr
  refine ⟨fun clear => exec_jumpIfFalse_taken hm haddr (and_eq_zero_iff.2 clear), fun ⟨k, named, set⟩ => ?_⟩
  refine exec_jumpIfFalse_not_taken hm haddr fun clear => ?_
  cases set.symm.trans (and_eq_zero_iff.1 clear k named)

/-- Settles O33: the target overwrites the `pc` past the instruction. -/
theorem jumpRegisterGoesToTheContents : Obligations.JumpRegisterGoesToTheContents := fun _ _ haddr => exec_jumpRegister haddr

end Sys2Proof.Machine
end

section
/-! INPUT and OUTPUT (43_io.md R140 to R144). -/
namespace Sys2Proof.Machine

section port
variable {cfg : Config} {c : Byte} {p : PortChannel}

/-- Three channel identifiers (R140). -/
theorem channels_of_valid (valid : cfg.valid = true) :
    cfg.chanCharacter ≠ cfg.chanNumeric ∧ cfg.chanCharacter ≠ cfg.chanString ∧ cfg.chanNumeric ≠ cfg.chanString := by
  simp only [Config.valid, Bool.and_eq_true, decide_eq_true_eq] at valid
  obtain ⟨⟨⟨-, characterNumeric⟩, characterString⟩, numericString⟩ := valid
  exact ⟨characterNumeric, characterString, numericString⟩

theorem portChannel_eq_some_iff (valid : cfg.valid = true) : portChannel cfg c = some p ↔ namesChannel cfg c p := by
  obtain ⟨distinct, -, -⟩ := channels_of_valid valid
  unfold portChannel
  cases p with
  | character =>
    split_ifs with character numeric
    · exact iff_of_true rfl character
    · exact iff_of_false nofun character
    · exact iff_of_false nofun character
  | numeric =>
    split_ifs with character numeric
    · exact iff_of_false nofun fun numeric => distinct (character.symm.trans numeric)
    · exact iff_of_true rfl numeric
    · exact iff_of_false nofun numeric

theorem selectChannel_of_named (valid : cfg.valid = true) (named : namesChannel cfg c p) : selectChannel cfg c = .ok p := by
  rw [selectChannel, (portChannel_eq_some_iff valid).2 named]

theorem selectChannel_of_unnamed (unnamed : ∀ p, ¬ namesChannel cfg c p) :
    selectChannel cfg c = .error (.fault (.unsupportedChannel c)) := by
  rw [selectChannel, portChannel_eq_none.2 ⟨unnamed .character, unnamed .numeric⟩]

theorem string_unnamed (valid : cfg.valid = true) : ∀ p, ¬ namesChannel cfg cfg.chanString p := by
  obtain ⟨-, character, numeric⟩ := channels_of_valid valid
  intro p
  cases p with
  | character => exact character.symm
  | numeric => exact numeric.symm

end port

section io
variable {s : State} {ch : Operand} {i : Payload} {p : PortChannel}

/-- The value is taken and recorded, then stored modulo 256 (R143). -/
theorem handler_input_supplied {v : Int} {rest : List Int} (valid : s.cfg.valid = true) (hch : inRange s.cfg ch)
    (hdst : inRange s.cfg (.ref i)) (named : namesChannel s.cfg (s.valueOf ch) p) (supplied : s.inputs = v :: rest) :
    handler (.input ch (.ref i)) s =
      .ok (((s.stored i (BitVec.ofInt 8 v)).setInputs rest).logIo (.consumed p v)) := by
  rw [handler, readOp_of_inRange hch, ok_bind, selectChannel_of_named valid named, ok_bind, State.ioIn, supplied, ok_bind,
    ← stored_consumed]
  exact writeOp_of_inRange (s := (s.setInputs rest).logIo _) .two _ hdst

theorem handler_input_waits {dst : Operand} (valid : s.cfg.valid = true) (hch : inRange s.cfg ch)
    (named : namesChannel s.cfg (s.valueOf ch) p) (empty : s.inputs = []) :
    handler (.input ch dst) s = .error (.waiting p) := by
  rw [handler, readOp_of_inRange hch, ok_bind, selectChannel_of_named valid named, ok_bind, State.ioIn, empty, error_bind]

theorem handler_input_unnamed {dst : Operand} (hch : inRange s.cfg ch) (unnamed : ∀ p, ¬ namesChannel s.cfg (s.valueOf ch) p) :
    handler (.input ch dst) s = .error (.fault (.unsupportedChannel (s.valueOf ch))) := by
  rw [handler, readOp_of_inRange hch, ok_bind, selectChannel_of_unnamed unnamed, error_bind]

theorem handler_output_of_named {src : Operand} (valid : s.cfg.valid = true) (hch : inRange s.cfg ch) (hsrc : inRange s.cfg src)
    (named : namesChannel s.cfg (s.valueOf ch) p) : handler (.output ch src) s = .ok (s.logIo (.emitted p (s.valueOf src))) := by
  rw [handler, readOp_of_inRange hch, ok_bind, selectChannel_of_named valid named, ok_bind, readOp_of_inRange hsrc, ok_bind]
  rfl

theorem handler_output_unnamed {src : Operand} (hch : inRange s.cfg ch) (unnamed : ∀ p, ¬ namesChannel s.cfg (s.valueOf ch) p) :
    handler (.output ch src) s = .error (.fault (.unsupportedChannel (s.valueOf ch))) := by
  rw [handler, readOp_of_inRange hch, ok_bind, selectChannel_of_unnamed unnamed, error_bind]

/-- An integer modulo 256 as a byte (43_io.md R143). -/
theorem ofInt_eq_ofNat_emod (v : Int) : BitVec.ofInt 8 v = BitVec.ofNat 8 (v % 256).toNat := by
  refine BitVec.eq_of_toNat_eq ?_
  rw [BitVec.toNat_ofInt, BitVec.toNat_ofNat]
  exact (Nat.mod_eq_of_lt (by omega)).symm

end io

/-- Settles O35: the handler takes the oldest value, records it and stores it. -/
theorem inputStoresTheSuppliedValue : Obligations.InputStoresTheSuppliedValue := by
  intro s ch i p v rest valid hch hdst named supplied
  have accepted : (Instr.input ch (.ref i)).wellFormed s.cfg = true := wellFormed_src_dst hch hdst
  have completes := handler_input_supplied (s := s.setPc (pcAfter s.pc (.input ch (.ref i)))) valid hch hdst
    (by rwa [valueOf_setPc]) supplied
  rw [exec_of_handler accepted completes, stored_setPc, ofInt_eq_ofNat_emod,
    ← stored_ioLog s i (BitVec.ofNat 8 (v % 256).toNat)]
  rfl

/-- An INPUT whose checks pass waits as long as nothing is supplied (R141). -/
theorem exec_input_waits {s : State} {ch : Operand} {i : Payload} {p : PortChannel} (valid : s.cfg.valid = true)
    (hch : inRange s.cfg ch) (hdst : inRange s.cfg (.ref i)) (named : namesChannel s.cfg (s.valueOf ch) p) (empty : s.inputs = []) :
    exec (.input ch (.ref i)) s = .fault (.awaitingInput p) := by
  have waits := handler_input_waits (s := s.setPc (pcAfter s.pc (.input ch (.ref i)))) (dst := .ref i) valid hch
    (by rwa [valueOf_setPc]) empty
  rw [exec_eq_runInstr]
  exact runInstr_eq_fault_iff.2 ⟨wellFormed_src_dst hch hdst, p, waits, rfl⟩

@[simp] theorem valueOf_supply (s : State) (v : Int) (o : Operand) : (s.supply v).valueOf o = s.valueOf o := by
  cases o <;> rfl

/-- Settles O36: with the list empty it waits; after a supply the list holds that one value, which it takes. -/
theorem inputWaitsForTheEnvironment : Obligations.InputWaitsForTheEnvironment := by
  intro s ch i p valid hch hdst named empty
  refine ⟨exec_input_waits valid hch hdst named empty, fun v => ?_⟩
  have supplied : (s.supply v).inputs = [v] := congrArg (· ++ [v]) empty
  exact ⟨_, inputStoresTheSuppliedValue (s.supply v) ch i p v [] valid hch hdst (by rwa [valueOf_supply]) supplied,
    rfl, rfl, rfl⟩

/-- Settles O37: OUTPUT reads both operands and appends its event. -/
theorem outputEmitsTheContents : Obligations.OutputEmitsTheContents := by
  intro s ch i p valid hch hsrc named
  have accepted : (Instr.output ch (.ref i)).wellFormed s.cfg = true := wellFormed_src_dst hch hsrc
  have completes := handler_output_of_named (s := s.setPc (pcAfter s.pc (.output ch (.ref i)))) valid hch hsrc
    (by rwa [valueOf_setPc])
  rw [exec_of_handler accepted completes, valueOf_setPc]
  rfl

end Sys2Proof.Machine
end

section
/-! The faults of the operand checks and of the handlers (40_dispatch.md R83, 60_exceptions.md R183, R184). -/
namespace Sys2Proof.Machine

section faults
variable {i : Instr} {s : State} {c : FaultCause}

theorem exec_of_check (h : checkOperands s.cfg (instrOperands i) = some c) :
    exec i s = .next (s.faultedWith (BitVec.ofNat 8 i.length) c) := by
  rw [exec_eq_runInstr, runInstr_ill h, pcAfter, State.takeFault_eq_faultedWith]

theorem exec_of_handler_fault (accepted : i.wellFormed s.cfg = true)
    (raises : handler i (s.setPc (pcAfter s.pc i)) = .error (.fault c)) :
    exec i s = .next (s.faultedWith (BitVec.ofNat 8 i.length) c) := by
  rw [exec_eq_runInstr, runInstr_wellFormed accepted, raises, finish, pcAfter, State.takeFault_eq_faultedWith]

variable {cfg : Config} {pos : OperandPos} {kind : OperandKind} {o : Operand} {rest : List (OperandPos × OperandKind × Operand)}

theorem checkOperands_first (h : checkOperand cfg pos kind o = some c) : checkOperands cfg ((pos, kind, o) :: rest) = some c := by
  rw [checkOperands, h]

theorem checkOperands_later (h : checkOperand cfg pos kind o = none) :
    checkOperands cfg ((pos, kind, o) :: rest) = checkOperands cfg rest := by
  rw [checkOperands, h]

/-- Operand 2 is checked once operand 1 has passed (R183). -/
theorem checkOperands_second {pos' : OperandPos} {kind' : OperandKind} {o' : Operand}
    (first : checkOperand cfg pos' kind' o' = none)
    (second : checkOperand cfg pos kind o = some c) : checkOperands cfg ((pos', kind', o') :: (pos, kind, o) :: rest) = some c :=
  (checkOperands_later first).trans (checkOperands_first second)

end faults

/-- Settles O23: the check of the literal's own position finds it, after the one before it has passed. -/
theorem literalInAddrPositionFaults : Obligations.LiteralInAddrPositionFaults := by
  intro s o n
  refine ⟨fun i hi ho => ?_, fun j hj => ?_, ?_, ?_, ?_⟩
  · have passed : checkOperand s.cfg .one .expr o = none := checkOperand_expr_eq_none.2 ho
    obtain rfl | rfl | rfl | rfl | rfl | rfl | rfl := hi <;> exact exec_of_check (checkOperands_second passed rfl)
  · exact exec_of_check (checkOperands_second (checkOperand_ref_ok .one .addrOfReference hj) rfl)
  · exact exec_of_check (checkOperands_first rfl)
  · exact exec_of_check (checkOperands_first rfl)
  · exact exec_of_check (checkOperands_first rfl)

/-- Settles O24: whatever its kind, a reference position's check finds the index that names nothing. -/
theorem referenceBeyondThePoolFaults : Obligations.ReferenceBeyondThePoolFaults := by
  intro s o j hj
  refine ⟨fun i hi => ?_, fun i hi ho => ?_, fun k hk => ?_, ?_, ?_⟩
  · obtain rfl | rfl | rfl | rfl | rfl | rfl | rfl | rfl := hi <;>
      exact exec_of_check (checkOperands_first (checkOperand_ref_bad .one _ hj))
  · have passed : checkOperand s.cfg .one .expr o = none := checkOperand_expr_eq_none.2 ho
    obtain rfl | rfl | rfl | rfl | rfl | rfl | rfl := hi <;>
      exact exec_of_check (checkOperands_second passed (checkOperand_ref_bad .two _ hj))
  · exact exec_of_check (checkOperands_second (checkOperand_ref_ok .one _ hk) (checkOperand_ref_bad .two _ hj))
  · exact exec_of_check (checkOperands_first (checkOperand_ref_bad .one _ hj))
  · exact exec_of_check (checkOperands_first (checkOperand_ref_bad .one _ hj))

/-- Settles O25: STRING is neither of the port's channels, and no other branch of the selection answers one. -/
theorem unsupportedChannelFaults : Obligations.UnsupportedChannelFaults := by
  intro s ch i valid hch hi unsupported
  have unnamed : ∀ p, ¬ namesChannel s.cfg (s.valueOf ch) p := by
    obtain string | unnamed := unsupported
    · exact string ▸ string_unnamed valid
    · exact unnamed
  have accepted := wellFormed_src_dst hch hi
  constructor
  · refine exec_of_handler_fault accepted ?_
    rw [handler_input_unnamed, valueOf_setPc]
    · exact hch
    · rwa [valueOf_setPc]
  · refine exec_of_handler_fault accepted ?_
    rw [handler_output_unnamed, valueOf_setPc]
    · exact hch
    · rwa [valueOf_setPc]

/-- Settles O26: an odd pointer byte decodes to a literal, an even one to a reference, and the store faults on either. -/
theorem badPointerFaults : Obligations.BadPointerFaults := by
  intro s src i hsrc href
  have store : handler (.addressOfIndirect src (.ref i)) (s.setPc (pcAfter s.pc (.addressOfIndirect src (.ref i)))) =
      (s.setPc (pcAfter s.pc (.addressOfIndirect src (.ref i)))).writeOp .indirect (decodeOperand (s.valueOf (.ref i)))
        (s.valueOf src) := by
    rw [handler_addressOfIndirect, valueOf_setPc, valueOf_setPc]
    · exact hsrc
    · exact href
  refine ⟨fun odd => ?_, fun j pointer hj => ?_⟩
  · refine exec_of_handler_fault (wellFormed_src_dst hsrc href) ?_
    rw [store, decodeOperand_of_odd odd, writeOp_lit]
  · refine exec_of_handler_fault (wellFormed_src_dst hsrc href) ?_
    rw [store, decodeOperand_of_double pointer, writeOp_of_not_inRange]
    exact hj

end Sys2Proof.Machine
end

section
/-! Where no step is enabled: a terminal state, or an INPUT that waits (40_dispatch.md R80, R89, 43_io.md R141). -/
namespace Sys2Proof.Machine

/-- Only an INPUT with no value supplied gives no next state. -/
theorem exec_total {i : Instr} {s : State} (h : (∀ ch dst, i ≠ .input ch dst) ∨ s.inputs ≠ []) :
    ∃ t, exec i s = .next t := by
  cases outcome : exec i s with
  | next t => exact ⟨t, rfl⟩
  | fault f =>
    obtain ⟨ch, dst, p, hi, -, -, empty, -⟩ := exec_eq_fault outcome
    obtain notInput | supplied := h
    · exact absurd hi (notInput ch dst)
    · exact absurd empty supplied
  | refused r => exact absurd outcome exec_ne_refused

/-- What a core that has no step waits for, when it is RUNNING. -/
theorem running_step_eq_fault {s : State} {f : Fault} (running : s.status = .running) (h : step s = .fault f) :
    ∃ ch dst p rest, s.instructionAt = .ok (.input ch dst, rest) ∧ (Instr.input ch dst).wellFormed s.cfg = true ∧
      portChannel s.cfg (s.valueOf ch) = some p ∧ s.inputs = [] ∧ f = .awaitingInput p := by
  obtain ⟨c, halted, -⟩ | ⟨r, faulted, -⟩ | ⟨-, i, rest, hi, waits⟩ := step_eq_fault h
  · cases running.symm.trans halted
  · cases running.symm.trans faulted
  · obtain ⟨ch, dst, p, rfl, accepted, channel, empty, hf⟩ := exec_eq_fault waits
    exact ⟨ch, dst, p, rest, hi, accepted, channel, empty, hf⟩

theorem running_step_cases {s : State} (running : s.status = .running) :
    (∃ t, step s = .next t) ∨ ∃ p, step s = .fault (.awaitingInput p) := by
  cases outcome : step s with
  | next t => exact .inl ⟨t, rfl⟩
  | fault f =>
    obtain ⟨-, -, p, -, -, -, -, -, rfl⟩ := running_step_eq_fault running outcome
    exact .inr ⟨p, rfl⟩
  | refused r => exact absurd outcome step_ne_refused

theorem running_of_waiting {s : State} {p : PortChannel} (h : step s = .fault (.awaitingInput p)) : s.status = .running := by
  obtain ⟨c, -, hf⟩ | ⟨r, -, hf⟩ | ⟨running, -⟩ := step_eq_fault h
  · cases hf
  · cases hf
  · exact running

/-- A supplied value changes neither what is fetched nor what runs, and INPUT takes it. -/
theorem step_supply {s : State} {p : PortChannel} (h : step s = .fault (.awaitingInput p)) (v : Int) :
    ∃ t, step (s.supply v) = .next t := by
  have running := running_of_waiting h
  obtain ⟨ch, dst, -, rest, hi, -⟩ := running_step_eq_fault running h
  have supplied : (s.supply v).inputs ≠ [] := List.append_ne_nil_of_right_ne_nil _ (List.cons_ne_nil v [])
  obtain ⟨t, ht⟩ := exec_total (i := .input ch dst) (.inr supplied)
  exact ⟨t, (step_of_instructionAt (s := s.supply v) running hi).trans ht⟩

/-- Settles O21: every other end of an instruction is a next state, a fault's or a halt's too. -/
theorem onlyTheInputWaitStopsARunningCore : Obligations.OnlyTheInputWaitStopsARunningCore :=
  ⟨fun _ _ => exec_total, fun _ => running_step_cases, fun _ _ v h => step_supply h v⟩

/-- Settles O55: an accepted INPUT is one whose dst names something, and under legal parameters its channel is the one named. -/
theorem stepWaitsExactlyAtAnUnsuppliedInput : Obligations.StepWaitsExactlyAtAnUnsuppliedInput := by
  intro s p valid
  constructor
  · intro h
    have running := running_of_waiting h
    obtain ⟨ch, dst, q, rest, hi, accepted, channel, empty, hq⟩ := running_step_eq_fault running h
    cases hq
    obtain ⟨hch, hdst⟩ := Bool.and_eq_true_iff.1 accepted
    obtain ⟨i, rfl, hi'⟩ := addrOk_iff.1 hdst
    exact ⟨running, empty, ch, i, rest, hi, exprOk_iff.1 hch, hi', (portChannel_eq_some_iff valid).1 channel⟩
  · rintro ⟨running, empty, ch, i, rest, hi, hch, hdst, named⟩
    exact (step_of_instructionAt running hi).trans (exec_input_waits valid hch hdst named empty)

end Sys2Proof.Machine
end

section
/-! Runs (40_dispatch.md R88, R89): states at which a run stays, and the four outcomes. -/
namespace Sys2Proof.Machine

section rest
variable {env : Environment} {s t : State} {o o' : RunOutcome}

/-- What the three outcomes that end a run say of the state it ends in (R88). -/
def RestsIn (env : Environment) (s : State) : RunOutcome → Prop
  | .halted => ∃ c, s.status = .halted c
  | .faulted => ∃ f, s.status = .faulted f
  | .waitingForever => ∃ p, s.awaitedChannel = some p ∧ env s.ioLog p = none
  | .diverging => False

theorem step_of_halted {c : HaltCause} (h : s.status = .halted c) : step s = .fault (.coreHalted c) := by
  simp only [step, cycle, h]

theorem step_of_faulted {f : FaultRecord} (h : s.status = .faulted f) : step s = .fault (.coreFaulted f) := by
  simp only [step, cycle, h]

/-- A core with no step that asks for nothing gets nothing. -/
theorem answered_of_terminal {f : Fault} (h : step s = .fault f) (notWaiting : ∀ p, f ≠ .awaitingInput p) :
    s.answered env = s := by
  refine answered_of_none (Option.eq_none_iff_forall_ne_some.2 fun p waits => ?_)
  exact notWaiting p (Host.Outcome.fault.inj (h.symm.trans (awaitedChannel_eq_some_iff.1 waits)))

/-- Where a run rests the environment does nothing and no step is enabled. -/
theorem RestsIn.stuck (h : RestsIn env s o) : s.answered env = s ∧ ∃ f, step s = .fault f := by
  cases o with
  | halted =>
    obtain ⟨c, hc⟩ := h
    exact ⟨answered_of_terminal (step_of_halted hc) (fun _ => Fault.noConfusion), _, step_of_halted hc⟩
  | faulted =>
    obtain ⟨f, hf⟩ := h
    exact ⟨answered_of_terminal (step_of_faulted hf) (fun _ => Fault.noConfusion), _, step_of_faulted hf⟩
  | waitingForever =>
    obtain ⟨p, waits, unanswered⟩ := h
    exact ⟨answered_of_unanswered waits unanswered, _, awaitedChannel_eq_some_iff.1 waits⟩
  | diverging => exact h.elim

/-- A state no move changes is the whole run. -/
theorem after_of_fixed (fixed : (s.answered env).tick = s) (n : Nat) : s.after env n = s :=
  after_induction (P := (· = s)) (fun _ hs => hs ▸ fixed) rfl n

theorem RestsIn.after_eq (h : RestsIn env s o) (n : Nat) : s.after env n = s := by
  obtain ⟨unanswered, f, noStep⟩ := h.stuck
  exact after_of_fixed (by rw [unanswered, tick_of_fault noStep]) n

/-- The outcome of a run that rests is read off its run state. -/
def restOutcome : Status → RunOutcome
  | .running => .waitingForever
  | .halted _ => .halted
  | .faulted _ => .faulted

theorem RestsIn.outcome (h : RestsIn env s o) : o = restOutcome s.status := by
  cases o with
  | halted =>
    obtain ⟨c, hc⟩ := h
    rw [hc, restOutcome]
  | faulted =>
    obtain ⟨f, hf⟩ := h
    rw [hf, restOutcome]
  | waitingForever =>
    obtain ⟨p, waits, -⟩ := h
    rw [running_of_waiting (awaitedChannel_eq_some_iff.1 waits), restOutcome]
  | diverging => exact h.elim

/-- Where a run does not rest it moves. -/
theorem moves_of_not_resting (h : ∀ o, ¬ RestsIn env s o) : s.status = .running ∧ ∃ t, step (s.answered env) = .next t := by
  have running : s.status = .running := by
    cases hs : s.status with
    | running => rfl
    | halted c => exact absurd ⟨c, hs⟩ (h .halted)
    | faulted f => exact absurd ⟨f, hs⟩ (h .faulted)
  refine ⟨running, ?_⟩
  obtain ⟨t, next⟩ | ⟨p, waits⟩ := running_step_cases running
  · rw [answered_of_none (awaitedChannel_eq_none_of_next next)]
    exact ⟨t, next⟩
  · have asks := awaitedChannel_eq_some_iff.2 waits
    cases answer : env s.ioLog p with
    | none => exact absurd ⟨p, asks, answer⟩ (h .waitingForever)
    | some v =>
      rw [answered_of_supplied asks answer]
      exact step_supply waits v

/-! The outcomes of a run by whether it comes to rest. -/

theorem endsIn_iff_rests (ends : o ≠ .diverging) : s.EndsIn env o ↔ ∃ n, RestsIn env (s.after env n) o := by
  cases o with
  | diverging => exact absurd rfl ends
  | halted | faulted | waitingForever => exact Iff.rfl

theorem not_rests_of_diverging (h : s.EndsIn env .diverging) (n : Nat) : ¬ RestsIn env (s.after env n) o := by
  intro rests
  obtain ⟨unanswered, f, noStep⟩ := rests.stuck
  obtain ⟨-, t, next⟩ := h n
  rw [unanswered] at next
  cases next.symm.trans noStep

theorem exists_endsIn (env : Environment) (s : State) : ∃ o, s.EndsIn env o := by
  by_cases rests : ∃ n o, RestsIn env (s.after env n) o
  · obtain ⟨n, o, h⟩ := rests
    have ends : o ≠ .diverging := by
      rintro rfl
      exact h
    exact ⟨o, (endsIn_iff_rests ends).2 ⟨n, h⟩⟩
  · exact ⟨.diverging, fun n => moves_of_not_resting fun o h => rests ⟨n, o, h⟩⟩

/-- A run that rests at two times rests there in one state. -/
theorem RestsIn.after_unique {m n : Nat} (h : RestsIn env (s.after env m) o) (h' : RestsIn env (s.after env n) o') : o = o' := by
  have same : s.after env m = s.after env n := by rw [← h.after_eq n, ← after_add, Nat.add_comm, after_add, h'.after_eq m]
  rw [h.outcome, h'.outcome, same]

theorem endsIn_unique (h : s.EndsIn env o) (h' : s.EndsIn env o') : o = o' := by
  by_cases diverges : o = .diverging <;> by_cases diverges' : o' = .diverging
  · rw [diverges, diverges']
  · obtain ⟨n, rests⟩ := (endsIn_iff_rests diverges').1 h'
    exact absurd rests (not_rests_of_diverging (diverges ▸ h) n)
  · obtain ⟨n, rests⟩ := (endsIn_iff_rests diverges).1 h
    exact absurd rests (not_rests_of_diverging (diverges' ▸ h') n)
  · obtain ⟨m, rests⟩ := (endsIn_iff_rests diverges).1 h
    obtain ⟨n, rests'⟩ := (endsIn_iff_rests diverges').1 h'
    exact rests.after_unique rests'

end rest

/-- Settles O20: a terminal state is one in which a run rests. -/
theorem terminalStatesTakeNoStep : Obligations.TerminalStatesTakeNoStep := by
  refine fun s => ⟨fun c hc => ⟨step_of_halted hc, fun env n => ?_⟩, fun f hf => ⟨step_of_faulted hf, fun env n => ?_⟩⟩
  · have rests : RestsIn env s .halted := ⟨c, hc⟩
    exact rests.after_eq n
  · have rests : RestsIn env s .faulted := ⟨f, hf⟩
    exact rests.after_eq n

/-- Settles O48: a run rests in one of three ways, in one state, or it never rests and so always moves. -/
theorem runHasExactlyOneOutcome : Obligations.RunHasExactlyOneOutcome := by
  intro env s
  obtain ⟨o, h⟩ := exists_endsIn env s
  exact ⟨o, h, fun _ h' => endsIn_unique h' h⟩

/-- Settles O57: of the four outcomes, waiting forever needs a request that is not answered. -/
theorem answeredRunNeverWaitsForever : Obligations.AnsweredRunNeverWaitsForever := by
  intro env s answers
  obtain ⟨o, h⟩ := exists_endsIn env s
  cases o with
  | halted => exact .inl h
  | faulted => exact .inr (.inl h)
  | waitingForever =>
    obtain ⟨n, p, -, unanswered⟩ := h
    exact absurd unanswered (answers _ p)
  | diverging => exact .inr (.inr h)

/-- Settles O58: the jump's next state is the state it started from, so every state of the run is that one. -/
theorem jumpToItselfDiverges : Obligations.JumpToItselfDiverges := by
  intro env s k rest running hk hi self
  have loop : step s = .next s := by
    rw [step_of_instructionAt running hi, exec_jumpRegister hk, self]
    rfl
  have asksNothing : s.answered env = s := answered_of_none (awaitedChannel_eq_none_of_next loop)
  intro n
  rw [after_of_fixed (by rw [asksNothing, tick_of_next loop]) n, asksNothing]
  exact ⟨running, s, loop⟩

/-! The invariant along a run. -/

theorem inv_supply {s : State} (inv : s.Inv) (v : Int) : (s.supply v).Inv :=
  ⟨inv.cfgValid, inv.memWf, inv.memInPool, inv.flagsReserved, inv.statusOk⟩

theorem inv_answered {env : Environment} {s : State} (inv : s.Inv) : (s.answered env).Inv := by
  obtain same | ⟨p, v, -, -, supplied⟩ := answered_cases env s
  · rwa [same]
  · rw [supplied]
    exact inv_supply inv v

theorem inv_tick {s : State} (inv : s.Inv) : s.tick.Inv := by
  cases outcome : step s with
  | next t =>
    rw [tick_of_next outcome]
    exact everyStepKeepsTheInvariant s t inv outcome
  | fault f => rwa [tick_of_fault outcome]
  | refused r => exact absurd outcome step_ne_refused

/-- Settles O56: what the environment does keeps it, and so does a step, or no step. -/
theorem everyRunKeepsTheInvariant : Obligations.EveryRunKeepsTheInvariant :=
  fun _ _ n inv => after_induction (fun _ h => inv_tick (inv_answered h)) inv n

end Sys2Proof.Machine
end

section
/-! What a load builds meets the invariant (70_reset_and_hazards.md R206, R207, 10_state.md R34). -/
namespace Sys2Proof.Machine

/-- The reset state of an image that fits in the pool. -/
theorem inv_resetFrom {cfg : Config} {image : Image} (valid : cfg.valid = true) (fits : image.payload.length ≤ cfg.memSize) :
    (resetFrom cfg image).Inv where
  cfgValid := valid
  memWf := Memory.wf_ofBytes image.payload
  memInPool c hc := by
    have listed : c.1 < 0 + image.payload.length := Memory.mem_ofBytes hc
    exact lt_of_lt_of_le listed (by rwa [Nat.zero_add])
  flagsReserved k _ _ := BitVec.getLsbD_zero
  statusOk := trivial

theorem length_imageIn_le (cfg : Config) (bs : List Byte) : (imageIn cfg bs).payload.length ≤ cfg.memSize :=
  List.length_take_le ..

/-- Settles O54: the payload is cut to MEMSIZE bytes, so the memory made of it lies in the pool. -/
theorem loadedStateMeetsInvariant : Obligations.LoadedStateMeetsInvariant := by
  intro cfg bs t valid h
  obtain ⟨-, rfl⟩ := load_bytes_cases h
  exact ⟨rfl, inv_resetFrom valid (length_imageIn_le cfg bs)⟩

theorem memSize_pos_of_valid {cfg : Config} (h : cfg.valid = true) : 0 < cfg.memSize := by
  simp only [Config.valid, Bool.and_eq_true, decide_eq_true_eq] at h
  omega

theorem length_defaultImage (cfg : Config) : (defaultImage cfg).payload.length = cfg.memSize := by
  rw [defaultImage, List.length_map, List.length_range]

theorem read_resetFrom_defaultImage {cfg : Config} {k : Nat} (hk : k < cfg.memSize) :
    (resetFrom cfg (defaultImage cfg)).mem.read k = Config.defaultImageByte k := by
  have placed := Memory.read_ofBytes (defaultImage cfg).payload 0 k
  rw [Nat.zero_add] at placed
  refine placed.trans ?_
  rw [defaultImage, List.getD_eq_getElem?_getD, List.getElem?_map, List.getElem?_range hk]
  rfl

/-- Settles O6: the default image is MEMSIZE bytes with a pc below MEMSIZE, whatever they are. -/
theorem defaultImageLoadBuildsTheResetState : Obligations.DefaultImageLoadBuildsTheResetState := by
  intro cfg valid
  have inPool : Config.defaultImagePc % cfg.memSize < cfg.memSize := Nat.mod_lt _ (memSize_pos_of_valid valid)
  have small := memSize_le_of_valid valid
  have pc : (resetFrom cfg (defaultImage cfg)).pc.toNat = Config.defaultImagePc % cfg.memSize :=
    Nat.mod_eq_of_lt (inPool.trans (by omega))
  exact ⟨_, rfl, fun k => read_resetFrom_defaultImage, pc, pc.trans_lt inPool, fun r => Vector.getElem_replicate .., rfl, rfl,
    inv_resetFrom valid (length_defaultImage cfg).le⟩

theorem ofBytes_replicate_zero : ∀ n k : Nat, Memory.ofBytes k (List.replicate n 0#8) = []
  | 0, _ => rfl
  | n + 1, k => (if_pos rfl).trans (ofBytes_replicate_zero n (k + 1))

/-- The header of log entry 1's image: magic 0x2017, size 144, memsize 128, pc 0. -/
def zeroHeader : List Byte :=
  [0x17#8, 0x20#8, 0#8, 0#8, 0x90#8, 0#8, 0#8, 0#8, 0x80#8, 0#8, 0#8, 0#8, 0#8, 0#8, 0#8, 0#8]

theorem u32At_zeroImage {o : Nat} (h : o + 4 ≤ zeroHeader.length) :
    u32At Config.standard (zeroHeader ++ List.replicate 128 0#8) o = u32At Config.standard zeroHeader o :=
  u32At_append _ h

/-- Settles O2: the header's fields are right and its pc 0, and zero bytes are not listed in memory. -/
theorem resetIsTheLoadOfTheZeroImage : Obligations.ResetIsTheLoadOfTheZeroImage := by
  have loadable : Loadable Config.standard (zeroHeader ++ List.replicate 128 0#8) :=
    { complete := by rw [List.length_append, List.length_replicate]; decide
      magic := (u32At_zeroImage (by decide)).trans (by decide)
      memsize := (u32At_zeroImage (by decide)).trans (by decide)
      pcInPool := (u32At_zeroImage (by decide)).trans_lt (by decide) }
  have image : imageIn Config.standard (zeroHeader ++ List.replicate 128 0#8) = ⟨0, List.replicate 128 0#8⟩ := by
    rw [imageIn, u32At_zeroImage (by decide)]
    rfl
  have built : resetFrom Config.standard ⟨0, List.replicate 128 0#8⟩ = State.reset := by
    rw [resetFrom, ofBytes_replicate_zero]
    rfl
  exact (load_of_loadable loadable).trans (by rw [image, built])

/-- Settles O1: the reset state is a loaded one. -/
theorem resetStateMeetsInvariant : Obligations.ResetStateMeetsInvariant := by
  obtain ⟨-, inv⟩ := loadedStateMeetsInvariant _ _ _ (by decide) resetIsTheLoadOfTheZeroImage
  exact inv

end Sys2Proof.Machine
end

section
/-! The saved image (70_reset_and_hazards.md R201, R208, R209). -/
namespace Sys2Proof.Machine

theorem length_bytesOfNumber : ∀ n v : Nat, (bytesOfNumber n v).length = n
  | 0, _ => rfl
  | n + 1, v => congrArg (· + 1) (length_bytesOfNumber n (v / 256))

theorem numberOfBytes_bytesOfNumber : ∀ n v : Nat, v < 256 ^ n → numberOfBytes (bytesOfNumber n v) = v
  | 0, v, h => by
    rw [pow_zero, Nat.lt_one_iff] at h
    rw [h]
    rfl
  | n + 1, v, h => by
    have high : v / 256 < 256 ^ n := Nat.div_lt_of_lt_mul (by rwa [pow_succ'] at h)
    rw [bytesOfNumber, numberOfBytes, numberOfBytes_bytesOfNumber n _ high, BitVec.toNat_ofNat]
    exact Nat.mod_add_div v 256

section fields
variable {cfg : Config} {v : Nat} {bs : List Byte}

theorem length_writeU32 (order : ByteOrder) (v : Nat) : (writeU32 order v).length = 4 := by
  cases order with
  | little => exact length_bytesOfNumber 4 v
  | big => exact List.length_reverse.trans (length_bytesOfNumber 4 v)

theorem readU32_writeU32 {order : ByteOrder} (h : v < 2 ^ 32) : readU32 order (writeU32 order v) = v := by
  have fits : v < 256 ^ 4 := h
  cases order with
  | little => exact numberOfBytes_bytesOfNumber 4 v fits
  | big => rw [readU32, writeU32, List.reverse_reverse, numberOfBytes_bytesOfNumber 4 v fits]

/-- The field at the front of an image. -/
theorem u32At_writeU32_append (h : v < 2 ^ 32) : u32At cfg (writeU32 cfg.imageByteOrder v ++ bs) 0 = v := by
  have length := length_writeU32 cfg.imageByteOrder v
  rw [← headerField_eq_u32At (by rw [List.length_append]; omega), headerField, List.drop_zero, List.take_left' length,
    readU32_writeU32 h]

/-- The fields after one field are those of the image without it, four bytes earlier. -/
theorem u32At_append_right {field : List Byte} (length : field.length = 4) {o : Nat} :
    u32At cfg (field ++ bs) (o + 4) = u32At cfg bs o := by
  have past (k : Nat) : (field ++ bs).getD (o + 4 + k) 0#8 = bs.getD (o + k) 0#8 := by
    rw [List.getD_append_right _ _ _ _ (by omega)]
    congr 1
    omega
  have here := past 0
  simp only [Nat.add_zero] at here
  simp only [u32At, here, past]

end fields

/-- The bytes of R208: the header's four fields, then the whole memory. -/
def savedBytes (s : State) : List Byte :=
  writeU32 s.cfg.imageByteOrder Config.imageMagic ++
    (writeU32 s.cfg.imageByteOrder (Config.imageHeaderSize + s.cfg.memSize) ++
      (writeU32 s.cfg.imageByteOrder s.cfg.memSize ++ (writeU32 s.cfg.imageByteOrder s.pc.toNat ++ s.memoryBytes)))

section saved
variable {s : State} {bs : List Byte}

theorem saveImage_halted {c : HaltCause} (h : s.status = .halted c) : saveImage s = some (savedBytes s) := by
  rw [saveImage, h, savedBytes]

/-- Only a HALTED core is saved (D24). -/
theorem saveImage_eq_some (h : saveImage s = some bs) : bs = savedBytes s := by
  cases hs : s.status with
  | halted c => exact (Option.some.inj ((saveImage_halted hs).symm.trans h)).symm
  | running | faulted => simp [saveImage, hs] at h

theorem saveImage_of_not_halted (h : ∀ c, s.status ≠ .halted c) : saveImage s = none := by
  cases hs : s.status with
  | halted c => exact absurd hs (h c)
  | running | faulted => rw [saveImage, hs]

theorem length_memoryBytes (s : State) : s.memoryBytes.length = s.cfg.memSize := by
  rw [State.memoryBytes, List.length_map, List.length_range]

theorem length_savedBytes (s : State) : (savedBytes s).length = 16 + s.cfg.memSize := by
  simp only [savedBytes, List.length_append, length_writeU32, length_memoryBytes]
  omega

theorem magic_savedBytes (s : State) : u32At s.cfg (savedBytes s) 0 = 0x2017 := u32At_writeU32_append (by decide)

theorem size_savedBytes (small : s.cfg.memSize ≤ 128) : u32At s.cfg (savedBytes s) 4 = 16 + s.cfg.memSize :=
  (u32At_append_right (length_writeU32 ..) (o := 0)).trans (u32At_writeU32_append (by rw [Config.imageHeaderSize]; omega))

theorem memsize_savedBytes (small : s.cfg.memSize ≤ 128) : u32At s.cfg (savedBytes s) 8 = s.cfg.memSize :=
  (u32At_append_right (length_writeU32 ..) (o := 4)).trans <|
    (u32At_append_right (length_writeU32 ..) (o := 0)).trans (u32At_writeU32_append (by omega))

theorem pc_savedBytes (s : State) : u32At s.cfg (savedBytes s) 12 = s.pc.toNat :=
  (u32At_append_right (length_writeU32 ..) (o := 8)).trans <| (u32At_append_right (length_writeU32 ..) (o := 4)).trans <|
    (u32At_append_right (length_writeU32 ..) (o := 0)).trans (u32At_writeU32_append (s.pc.isLt.trans (by decide)))

theorem drop_savedBytes (s : State) : (savedBytes s).drop 16 = s.memoryBytes := by
  have field (v : Nat) (bs : List Byte) (n : Nat) : (writeU32 s.cfg.imageByteOrder v ++ bs).drop (4 + n) = bs.drop n := by
    rw [← List.drop_drop, List.drop_left' (length_writeU32 ..)]
  exact (field _ _ 12).trans <| (field _ _ 8).trans <| (field _ _ 4).trans (field _ _ 0)

theorem payload_savedBytes {k : Nat} (hk : k < s.cfg.memSize) : (savedBytes s)[16 + k]? = some (s.mem.read k) := by
  rw [← List.getElem?_drop, drop_savedBytes, State.memoryBytes, List.getElem?_map, List.getElem?_range hk]
  rfl

end saved

/-- Settles O7: each field is read back where it was written. -/
theorem savedImageHoldsPcAndMemory : Obligations.SavedImageHoldsPcAndMemory := by
  intro s valid
  have small := memSize_le_of_valid valid
  refine ⟨fun c halted => ⟨_, saveImage_halted halted, length_savedBytes s, magic_savedBytes s, size_savedBytes small,
    memsize_savedBytes small, pc_savedBytes s, fun k => payload_savedBytes⟩, saveImage_of_not_halted⟩

/-- An address no entry lists reads 0. -/
theorem read_eq_zero_of_unlisted {a : Nat} : ∀ {m : Memory}, (∀ c ∈ m, c.1 ≠ a) → m.read a = 0#8
  | [], _ => rfl
  | (k, v) :: rest, h => by
    rw [Memory.read, if_neg (h (k, v) List.mem_cons_self)]
    exact read_eq_zero_of_unlisted fun c hc => h c (List.mem_cons_of_mem _ hc)

/-- Two states that meet the invariant and read alike in the pool have the same memory. -/
theorem mem_eq_of_read_eq {s t : State} (inv : s.Inv) (inv' : t.Inv) (cfg : t.cfg = s.cfg)
    (same : ∀ k, k < s.cfg.memSize → t.mem.read k = s.mem.read k) : t.mem = s.mem := by
  refine Memory.ext_of_read inv'.memWf inv.memWf fun a => ?_
  obtain inPool | beyond := Nat.lt_or_ge a s.cfg.memSize
  · exact same a inPool
  · rw [read_eq_zero_of_unlisted fun c hc => ((inv'.memInPool c hc).trans_le (cfg ▸ beyond)).ne,
      read_eq_zero_of_unlisted fun c hc => ((inv.memInPool c hc).trans_le beyond).ne]

/-- Settles O8: the saved image passes every check of the load, and the memory it builds reads as the saved one did. -/
theorem saveThenLoadKeepsPcAndMemory : Obligations.SaveThenLoadKeepsPcAndMemory := by
  intro s bs inv saved pc
  obtain rfl := saveImage_eq_some saved
  have small := memSize_le_of_valid inv.cfgValid
  have loadable : Loadable s.cfg (savedBytes s) :=
    ⟨(length_savedBytes s).ge, magic_savedBytes s, memsize_savedBytes small, (pc_savedBytes s).trans_lt pc⟩
  have inv' : (resetFrom s.cfg (imageIn s.cfg (savedBytes s))).Inv := inv_resetFrom inv.cfgValid (length_imageIn_le ..)
  refine ⟨_, load_of_loadable loadable, ?_, mem_eq_of_read_eq inv inv' rfl fun k hk => ?_,
    fun r => Vector.getElem_replicate .., rfl⟩
  · rw [resetFrom, imageIn, pc_savedBytes, BitVec.ofNat_toNat, BitVec.setWidth_eq]
  · exact Option.some.inj ((read_resetFrom_imageIn loadable.complete hk).symm.trans (payload_savedBytes hk))

/-- Settles O9: the image is whole and its first two fields are right, so the pc's check is the one that fails (R202). -/
theorem imageSavedAtPoolEndDoesNotLoad : Obligations.ImageSavedAtPoolEndDoesNotLoad := by
  intro s bs inv saved pc
  obtain rfl := saveImage_eq_some saved
  have small := memSize_le_of_valid inv.cfgValid
  have complete : 16 ≤ (savedBytes s).length := (Nat.le_add_right ..).trans (length_savedBytes s).ge
  obtain ⟨-, -, -, -, pcOutOfRange, -⟩ := loadFaultsInOrder s.cfg (savedBytes s)
  exact pcOutOfRange complete (magic_savedBytes s) (memsize_savedBytes small) ((pc_savedBytes s).trans pc).ge

end Sys2Proof.Machine
end

section
/-! The two definitions of each carry (41_move_arith.md R107), and the rendering of output events (43_io.md R142). -/
namespace Sys2Proof.Machine

/-- Settles O52: the ALU's carry is the comparison of numbers. -/
theorem carryDefinitionsAgree : Obligations.CarryDefinitionsAgree := by
  intro old delta
  rw [aluAdd_carry, aluSub_carry, decide_eq_true_iff, decide_eq_true_iff]
  exact ⟨Iff.rfl, Iff.rfl⟩

/-- Digit codes that write `n`: at least one, each a digit's, no leading zero but in 0 itself. -/
def WritesNumber (ds : List Nat) (n : Nat) : Prop :=
  ds ≠ [] ∧ (∀ d ∈ ds, 48 ≤ d ∧ d ≤ 57) ∧ ds.foldl (fun acc d => 10 * acc + (d - 48)) 0 = n ∧
    (ds.head? = some 48 → ds = [48])

theorem writesNumber_one {n : Nat} (h : n < 10) : WritesNumber [48 + n] n := by
  refine ⟨List.cons_ne_nil _ _, by simp; omega, by simp, by simp⟩

theorem writesNumber_two {n : Nat} (low : 10 ≤ n) (high : n < 100) : WritesNumber [48 + n / 10, 48 + n % 10] n := by
  refine ⟨List.cons_ne_nil _ _, by simp; omega, by simp; omega, by simp; omega⟩

theorem writesNumber_three {n : Nat} (low : 100 ≤ n) (high : n < 1000) :
    WritesNumber [48 + n / 100, 48 + n / 10 % 10, 48 + n % 10] n := by
  refine ⟨List.cons_ne_nil _ _, by simp; omega, by simp; omega, by simp; omega⟩

theorem writesNumber_decimalCodes (v : Byte) : WritesNumber (decimalCodes v) v.toNat := by
  have byte : v.toNat < 256 := v.isLt
  simp only [decimalCodes]
  split_ifs with one two
  · exact writesNumber_one one
  · exact writesNumber_two (not_lt.1 one) two
  · exact writesNumber_three (not_lt.1 two) (byte.trans (by decide))

/-- Settles O53: the rendering has one digit below 10, two below 100 and three from there on, as the value has. -/
theorem outputRendersAsDecimalOrCode : Obligations.OutputRendersAsDecimalOrCode :=
  fun v => ⟨rfl, decimalCodes v, rfl, writesNumber_decimalCodes v⟩

end Sys2Proof.Machine
end
